-- ==== Sys2Proof/Word.lean ====
section
/-!
DEFINITION. The engine's basic types: bytes, 64-bit words, frames, and the response codes that every frame ends with
(00_scope.md R7, 30_encoding.md R70, 60_exceptions.md R160).
-/

namespace Sys2Proof

/-- A byte: 8 bits, value 0..255 (00_scope.md R7). -/
abbrev Byte := BitVec 8

/-- A lane or word: a 64-bit unsigned integer, bit 0 least significant (00_scope.md R7). -/
abbrev Word := BitVec 64

/-- A frame: a finite sequence of bytes in arrival order, possibly empty (30_encoding.md R70). -/
abbrev Frame := List Byte

/-- The word whose byte 0 is `b` and whose other bytes are zero (00_scope.md R11). -/
abbrev zext64 (b : Byte) : Word := b.setWidth 64

/-- The response codes: success and the six rejections (60_exceptions.md R160). Their 8-bit numbers are `Code.byte` in
Machine/Flags.lean. -/
inductive Code where
  /-- The frame was accepted and executed. -/
  | ok
  /-- Empty frame, or the wrong length for CFG, INIT or FINISH (with a finite MAX_PAYLOAD also a longer format-P frame). -/
  | eFrame
  /-- Reserved opcode. -/
  | eIllegal
  /-- KEY whose payload is not exactly 16 bytes: doc00's `InvalidKeyLength`. -/
  | eKeylen
  /-- CFG with a zero round count. -/
  | eRounds
  /-- INIT or HASH with no key. -/
  | eNokey
  /-- UPDATE or FINISH outside a session, CFG inside one. -/
  | ePhase
deriving DecidableEq, Repr

end Sys2Proof
end

