-- ==== Sys2Proof/Config.lean ====
section
/-!
DEFINITION. What is fixed for the machine: the parameters of 00_scope.md R6. The engine holds none of them in a register
(10_state.md R21).
-/

namespace Sys2Proof

/-- Initialization constant `C0`, the value 40_config_key_init.md R97 states. The spec marks the four values as general
knowledge and records that its rules with them give the source's two outputs. TESTED, log 5. -/
def Config.C0 : Word := 0x736f6d6570736575#64

/-- Initialization constant `C1` (40_config_key_init.md R97). TESTED, log 5. -/
def Config.C1 : Word := 0x646f72616e646f6d#64

/-- Initialization constant `C2` (40_config_key_init.md R97). TESTED, log 5. -/
def Config.C2 : Word := 0x6c7967656e657261#64

/-- Initialization constant `C3` (40_config_key_init.md R97). TESTED, log 5. -/
def Config.C3 : Word := 0x7465646279746573#64

/-- The constant XORed into `v2` before the final rounds, as a 64-bit operand (43_finalization.md R137). -/
def Config.finalTag : Word := 0x00000000000000ff#64

/-- The default round counts `(c, d)`, loaded by reset (10_state.md R37). -/
def Config.defaultC : Byte := 2#8

/-- See `Config.defaultC`. -/
def Config.defaultD : Byte := 4#8

/-- The length of the Secret in bytes (00_scope.md R6). -/
abbrev Config.secretBytes : Nat := 16

/-- The open parameter MAX_PAYLOAD: the longest payload of one frame, `none` for unbounded, which is the spec's default and
the value every rule of it is written for (00_scope.md R6, 30_encoding.md R77). The decoder takes it as an argument; log 4. -/
def Config.maxPayload : Option Nat := none

/-- Whether a payload of `n` bytes is within the bound `max` (30_encoding.md R77). -/
def Config.fits (max : Option Nat) (n : Nat) : Bool :=
  match max with
  | none => true
  | some m => decide (n ≤ m)

end Sys2Proof
end

