-- ==== Sys2Proof/Syntax.lean ====
section
/-!
DEFINITION. The six commands of the engine, one constructor per row of spec/opcode_table.json (30_encoding.md R75). The
operands are those of the frame formats (30_encoding.md R72, R74).
-/

namespace Sys2Proof

/-- A command. -/
inductive Instr where
  /-- CFG: set the round counts (40_config_key_init.md R91). -/
  | cfg (c d : Byte)
  /-- KEY: derive the key lanes from the Secret, which is well formed with 16 bytes (40_config_key_init.md R94). -/
  | key (secret : List Byte)
  /-- INIT: initialize the lanes and open a session (40_config_key_init.md R98). -/
  | init
  /-- UPDATE: absorb the payload incrementally (42_absorption.md R125). -/
  | update (payload : List Byte)
  /-- FINISH: finalize the session (43_finalization.md R138). -/
  | finish
  /-- HASH: hash the whole payload over the batch path (43_finalization.md R140). -/
  | hash (payload : List Byte)
deriving DecidableEq, Repr

end Sys2Proof
end

