-- ==== Sys2Proof/WellFormed.lean ====
section
/-!
DEFINITION. When a command is well formed, that is, some frame the decoder accepts stands for it: KEY's payload has exactly
16 bytes (30_encoding.md R77, R79), and a payload is within MAX_PAYLOAD (30_encoding.md R77). A zero round count is well
formed: it decodes, and CFG rejects it (30_encoding.md R74).
-/

namespace Sys2Proof

/-- Well-formedness under the payload bound `max`. -/
def wellFormedFor (max : Option Nat) : Instr → Bool
  | .cfg _ _ => true
  | .key secret => decide (secret.length = Config.secretBytes) && Config.fits max Config.secretBytes
  | .init => true
  | .update payload => Config.fits max payload.length
  | .finish => true
  | .hash payload => Config.fits max payload.length

/-- Well-formedness under the engine's own bound. -/
abbrev WellFormed (i : Instr) : Prop := wellFormedFor Config.maxPayload i = true

end Sys2Proof
end

