-- ==== Sys2Proof/Decode.lean ====
section
/-!
DEFINITION. The decoder, total on every byte sequence and independent of the engine's state (30_encoding.md R78, R79), and
after it the encoder (30_encoding.md R79), both written from the opcode map of 30_encoding.md R75; then the layout of an
opcode-table word as a frame.
-/

namespace Sys2Proof

/-- The decoder's answer: a command, or a rejection with its code (30_encoding.md R79). -/
inductive Decoded where
  | cmd (i : Instr)
  | reject (e : Code)
deriving DecidableEq, Repr

/-- Decoding under the payload bound `max`. The order of the tests is the spec's: emptiness, then opcode, then length
(30_encoding.md R79); a payload over the bound is E_FRAME at the same point as the other length tests (30_encoding.md R77).
For KEY the Secret's length is tested first (60_exceptions.md R171); log 4. -/
def decodeFor (max : Option Nat) : Frame → Decoded
  | [] => .reject .eFrame
  | op :: rest =>
    if op = 0x01#8 then
      match rest with
      | [c, d] => .cmd (.cfg c d)
      | _ => .reject .eFrame
    else if op = 0x02#8 then
      if rest.length = Config.secretBytes then
        if Config.fits max rest.length then .cmd (.key rest) else .reject .eFrame
      else .reject .eKeylen
    else if op = 0x03#8 then
      if rest = [] then .cmd .init else .reject .eFrame
    else if op = 0x04#8 then
      if Config.fits max rest.length then .cmd (.update rest) else .reject .eFrame
    else if op = 0x05#8 then
      if rest = [] then .cmd .finish else .reject .eFrame
    else if op = 0x06#8 then
      if Config.fits max rest.length then .cmd (.hash rest) else .reject .eFrame
    else .reject .eIllegal

/-- The engine's decoder (30_encoding.md R79). -/
def decode (F : Frame) : Decoded := decodeFor Config.maxPayload F

/-- The opcode byte of a command (30_encoding.md R75). -/
def opcodeOf : Instr → Byte
  | .cfg _ _ => 0x01#8
  | .key _ => 0x02#8
  | .init => 0x03#8
  | .update _ => 0x04#8
  | .finish => 0x05#8
  | .hash _ => 0x06#8

/-- The operand bytes of a command, in frame order (30_encoding.md R72). -/
def operandBytes : Instr → List Byte
  | .cfg c d => [c, d]
  | .key secret => secret
  | .init => []
  | .update payload => payload
  | .finish => []
  | .hash payload => payload

/-- The frame of a command: the opcode byte and then the operand bytes (30_encoding.md R79). -/
def encode (i : Instr) : Frame := opcodeOf i :: operandBytes i

/-- The shortest frame that the opcode map requires for an opcode byte (30_encoding.md R75). -/
def requiredLength (op : Byte) : Nat :=
  if op = 0x01#8 then 3 else if op = 0x02#8 then 17 else 1

/-- The frame of an opcode-table word: `nbits` bits in whole bytes, bits 7:0 the first byte, and every further byte the
opcode's format requires zero; log 10. -/
def tableFrame (nbits w : Nat) : Frame :=
  let w' := w % 2 ^ nbits
  (List.range (Nat.max (nbits / 8) (requiredLength (BitVec.ofNat 8 w')))).map fun j => BitVec.ofNat 8 (w' >>> (8 * j))

/-- The command the decoder reads from an opcode-table word. -/
def decodeTableWord (nbits w : Nat) : Option Instr :=
  match decode (tableFrame nbits w) with
  | .cmd i => some i
  | .reject _ => none

end Sys2Proof
end

