-- ==== Sys2Proof/Machine/State.lean ====
section
/-!
DEFINITION. The engine's state: the fifteen registers of 10_state.md R20 and the events the host will still deliver; the
reasons a step could stop; the state after reset (10_state.md R37).
-/

namespace Sys2Proof.Machine

open Sys2Proof

/-- The phase register's three values (10_state.md R26). -/
inductive Phase where
  /-- No session is open and no digest is current. -/
  | idle
  /-- A session is open. -/
  | absorb
  /-- A session was finalized and `OUT` holds its digest. -/
  | done
deriving DecidableEq, Repr

/-- The key lanes `k0`, `k1` (10_state.md R22). -/
structure KeyLanes where
  k0 : Word
  k1 : Word
deriving DecidableEq, Repr

/-- Four working lanes `v0..v3` (10_state.md R23). -/
structure Lanes where
  v0 : Word
  v1 : Word
  v2 : Word
  v3 : Word
deriving DecidableEq, Repr

/-- What the host can do to the engine between two steps: deliver a whole frame on the command port (30_encoding.md R70),
or assert reset (70_reset_and_hazards.md R185). -/
inductive PortEvent where
  | frame (F : Frame)
  | reset
deriving DecidableEq, Repr

/-- The machine. All fields but the last are the registers of 10_state.md R20, each under its name there. -/
structure State where
  /-- `k0`, `k1`. -/
  k : KeyLanes
  /-- `v0`, `v1`, `v2`, `v3`. -/
  v : Lanes
  /-- `PEND`: buffered byte `j` is byte `j`, the bytes from `FILL` on are zero (10_state.md R32). -/
  pend : Word
  /-- `FILL`: how many bytes `PEND` buffers, 0..7 (10_state.md R32). -/
  fill : BitVec 3
  /-- `LEN`: bytes absorbed in this session, modulo 256 (10_state.md R33). -/
  len : Byte
  /-- `RC_C`: rounds per block (10_state.md R28). -/
  rcC : Byte
  /-- `RC_D`: final rounds (10_state.md R28). -/
  rcD : Byte
  /-- `KV`: the key lanes hold a derived key (10_state.md R27). -/
  kv : Bool
  /-- `PH` (10_state.md R26). -/
  ph : Phase
  /-- `OUT`: the last digest (10_state.md R31). -/
  out : Word
  /-- `ERR`: the response code of the most recent frame (10_state.md R30). -/
  err : Code
  /-- The model's own field: what the host has still to deliver, oldest first. It stands for the input of the step and is no
  register of the engine (10_state.md R21, R36). DESIGN CHOICE, log 1. -/
  port : List PortEvent
deriving DecidableEq, Repr

/-- Why a step could fault: never. The engine has no fault state (60_exceptions.md R165), so no constructor exists; a
rejected frame is an ordinary next state (60_exceptions.md R163). DEDUCED, log 13. -/
inductive Fault where
deriving DecidableEq, Repr

/-- Why a step could be refused. -/
inductive Refusal where
  /-- Raised by a dispatch arm whose instruction has no meaning yet, by its mnemonic; safe. No arm raises it: all six
  commands have their meaning. -/
  | notModelled (mnemonic : String)
deriving DecidableEq, Repr

/-- What a step or a command answers. -/
abbrev Answer := Host.Outcome State Fault Refusal

/-- The state right after reset (10_state.md R37, 70_reset_and_hazards.md R185), with nothing to deliver (log 1). -/
def State.reset : State where
  k := ⟨0, 0⟩
  v := ⟨0, 0, 0, 0⟩
  pend := 0
  fill := 0
  len := 0
  rcC := Config.defaultC
  rcD := Config.defaultD
  kv := false
  ph := .idle
  out := 0
  err := .ok
  port := []

end Sys2Proof.Machine
end

