-- ==== Sys2Proof/Machine/Flags.lean ====
section
/-!
DEFINITION. The engine's status. It has no condition codes and no command computes a flag from data (10_state.md R27); what
it shows is the status port, a read-only view of `PH`, `KV`, `ERR`, `RC_C` and `RC_D` (10_state.md R29), and `OUT`.
-/

namespace Sys2Proof.Machine

open Sys2Proof

/-- The number of a response code (60_exceptions.md R160). -/
def codeByte : Code → Byte
  | .ok => 0x00#8
  | .eFrame => 0x01#8
  | .eIllegal => 0x02#8
  | .eKeylen => 0x03#8
  | .eRounds => 0x04#8
  | .eNokey => 0x05#8
  | .ePhase => 0x06#8

/-- The value of the phase register (10_state.md R20, R26). -/
def phaseBits : Phase → BitVec 2
  | .idle => 0#2
  | .absorb => 1#2
  | .done => 2#2

/-- The status port: bits 1:0 `PH`, 2 `KV`, 7:3 zero, 15:8 `ERR`, 23:16 `RC_C`, 31:24 `RC_D` (10_state.md R29). -/
def statusPort (s : State) : BitVec 32 :=
  s.rcD ++ s.rcC ++ codeByte s.err ++ 0#5 ++ BitVec.ofBool s.kv ++ phaseBits s.ph

/-- Everything the host can read (10_state.md R36). -/
structure HostPorts where
  /-- The output port, 64 parallel bits (10_state.md R31). -/
  out : Word
  /-- The status port. -/
  status : BitVec 32
deriving DecidableEq, Repr

/-- What the host reads between two frames; reading changes nothing (10_state.md R29, R31). -/
def hostPorts (s : State) : HostPorts := ⟨s.out, statusPort s⟩

end Sys2Proof.Machine
end

