-- ==== Sys2Proof/Machine/Operands.lean ====
section
/-!
DEFINITION. How operands are assembled from bytes: little-endian words (00_scope.md R9), payload reads (00_scope.md R11),
the key lanes from the Secret (40_config_key_init.md R93), the tail of a payload (42_absorption.md R128) and the final lane
(43_finalization.md R136).
-/

namespace Sys2Proof.Machine

open Sys2Proof

/-- Byte `j` of a word: bits `8j+7 .. 8j` (00_scope.md R7). -/
def byteOf (w : Word) (j : Nat) : Byte := w.extractLsb' (8 * j) 8

/-- The exact value `b0 + b1·2^8 + …` of a byte sequence (00_scope.md R9). -/
def leValue : List Byte → Nat
  | [] => 0
  | b :: bs => b.toNat + 2 ^ 8 * leValue bs

/-- Little-endian assembly of at most 8 bytes; missing bytes are zero (00_scope.md R9). -/
def le (bs : List Byte) : Word := BitVec.ofNat 64 (leValue bs)

/-- `MemRead(i, m)`: the `m` payload bytes from index `i` as a word (00_scope.md R11). The commands read inside the payload
only; log 8. -/
def memRead (P : List Byte) (i m : Nat) : Word := le ((P.drop i).take m)

/-- `KeyDerive`: the Secret's two halves, each little-endian (40_config_key_init.md R93). -/
def keyDerive (secret : List Byte) : KeyLanes := ⟨memRead secret 0 8, memRead secret 8 8⟩

/-- `Tail`: the 0..7 bytes after a payload's last complete block (42_absorption.md R128). -/
def tail (P : List Byte) : Word := memRead P (8 * (P.length / 8)) (P.length % 8)

/-- `FinalLane`: the tail with the length tag in byte 7 (43_finalization.md R136). -/
def finalLane (tail : Word) (len8 : Byte) : Word := tail ||| (zext64 len8 <<< 56)

/-- The message bytes a pending lane buffers, in arrival order: bytes `0 .. fill-1` of `pend` (10_state.md R32). -/
def bufferedBytes (pend : Word) (fill : BitVec 3) : List Byte := (List.range fill.toNat).map (byteOf pend)

end Sys2Proof.Machine
end

