-- ==== Sys2Proof/Machine/Round.lean ====
section
/-!
DEFINITION. The round unit (41_round.md): rotation, the one compression round, its repetition, and its inverse, which the
engine never computes but the spec states.
-/

namespace Sys2Proof.Machine

open Sys2Proof

/-- Circular left shift by `0 < n < 64` (00_scope.md R8). -/
def rotl (x : Word) (n : Nat) : Word := (x <<< n) ||| (x >>> (64 - n))

/-- `SipRound`, line by line as 41_round.md R111 writes it; a later line reads the lanes as the earlier lines left them. -/
def sipRound (v : Lanes) : Lanes :=
  let ⟨v0, v1, v2, v3⟩ := v
  let v0 := v0 + v1;        let v2 := v2 + v3
  let v1 := rotl v1 13;     let v3 := rotl v3 16
  let v1 := v1 ^^^ v0;      let v3 := v3 ^^^ v2;      let v0 := rotl v0 32
  let v2 := v2 + v1;        let v0 := v0 + v3
  let v1 := rotl v1 17;     let v3 := rotl v3 21
  let v1 := v1 ^^^ v2;      let v3 := v3 ^^^ v0;      let v2 := rotl v2 32
  ⟨v0, v1, v2, v3⟩

/-- `Rounds(v, n)`: the round applied `n` times (41_round.md R114). -/
def rounds (v : Lanes) : Nat → Lanes
  | 0 => v
  | n + 1 => sipRound (rounds v n)

/-- The inverse of the round (41_round.md R116(a)), in the names of R112; no command uses it. -/
def sipRoundInv (w : Lanes) : Lanes :=
  let ⟨a3, b4, c3, d4⟩ := w
  let c2 := rotl c3 32
  let d3 := d4 ^^^ a3
  let b3 := b4 ^^^ c2
  let d2 := rotl d3 43
  let b2 := rotl b3 47
  let a2 := a3 - d2
  let c1 := c2 - b2
  let a1 := rotl a2 32
  let d1 := d2 ^^^ c1
  let b1 := b2 ^^^ a1
  let d := rotl d1 48
  let b := rotl b1 51
  let c := c1 - d
  let a := a1 - b
  ⟨a, b, c, d⟩

end Sys2Proof.Machine
end

