-- ==== Sys2Proof/Machine/Ops.lean ====
section
/-!
DEFINITION. The operations the commands share: accepting and rejecting a frame, lane initialization, block absorption in its
two paths, finalization, and taking the next event from the port. The engine has no memory of its own (20_memory.md R50).
-/

namespace Sys2Proof.Machine

open Sys2Proof

/-- How an accepted frame ends: `ERR <- OK` (40_config_key_init.md R90). -/
def State.accept (s : State) : State := { s with err := .ok }

/-- TAKING A REJECTION, the engine's only exception: `ERR <- code` and nothing else; nothing is saved, no mode changes and
control goes nowhere (00_scope.md R12, 60_exceptions.md R163). There is no return from it (60_exceptions.md R164). -/
def State.reject (e : Code) (s : State) : State := { s with err := e }

/-- `InitLanes` (40_config_key_init.md R96). -/
def initLanes (k : KeyLanes) : Lanes :=
  ⟨Config.C0 ^^^ k.k0, Config.C1 ^^^ k.k1, Config.C2 ^^^ k.k0, Config.C3 ^^^ k.k1⟩

/-- `v3 <- v3 ^ m`, the injection before a block's rounds (42_absorption.md R121). -/
def xorV3 (m : Word) (v : Lanes) : Lanes := { v with v3 := v.v3 ^^^ m }

/-- `v0 <- v0 ^ m`, the injection after a block's rounds (42_absorption.md R121). -/
def xorV0 (m : Word) (v : Lanes) : Lanes := { v with v0 := v.v0 ^^^ m }

/-- `v2 <- v2 ^ m`, the mark of finalization (43_finalization.md R137). -/
def xorV2 (m : Word) (v : Lanes) : Lanes := { v with v2 := v.v2 ^^^ m }

/-- `AbsorbBlock` (42_absorption.md R121). -/
def absorbBlock (v : Lanes) (m : Word) (c : Nat) : Lanes := xorV0 m (rounds (xorV3 m v) c)

/-- `PushByte` (42_absorption.md R124): the incremental path's step for one byte. -/
def pushByte (s : State) (b : Byte) : State :=
  let pend := s.pend ||| (zext64 b <<< (8 * s.fill.toNat))
  if s.fill.toNat + 1 = 8 then
    { s with v := absorbBlock s.v pend s.rcC.toNat, pend := 0, fill := 0, len := s.len + 1 }
  else
    { s with pend := pend, fill := s.fill + 1, len := s.len + 1 }

/-- `PushByte` over a payload in ascending index order (42_absorption.md R125). -/
def pushBytes (s : State) (P : List Byte) : State := P.foldl pushByte s

/-- `BatchAbsorb` (42_absorption.md R127): the complete blocks of a payload, in order. -/
def batchAbsorb (v : Lanes) (P : List Byte) (c : Nat) : Lanes :=
  (List.range (P.length / 8)).foldl (fun v j => absorbBlock v (memRead P (8 * j) 8) c) v

/-- The output fold `v0 ^ v1 ^ v2 ^ v3` (43_finalization.md R137). -/
def outputFold (v : Lanes) : Word := v.v0 ^^^ v.v1 ^^^ v.v2 ^^^ v.v3

/-- The lanes `Finalize` returns (43_finalization.md R137). -/
def finalizeLanes (v : Lanes) (mf : Word) (c d : Nat) : Lanes :=
  rounds (xorV2 Config.finalTag (absorbBlock v mf c)) d

/-- `Finalize`: the new lanes and the output (43_finalization.md R137). -/
def finalize (v : Lanes) (mf : Word) (c d : Nat) : Lanes × Word :=
  let w := finalizeLanes v mf c d
  (w, outputFold w)

/-- The oldest event the host delivers, and the machine with that event taken; `none` when there is nothing to deliver
(30_encoding.md R70, R71). -/
def nextEvent (s : State) : Option (PortEvent × State) :=
  match s.port with
  | [] => none
  | e :: rest => some (e, { s with port := rest })

/-- Reset: every register at its reset value (70_reset_and_hazards.md R185). What the host will deliver afterwards is not
the engine's to reset (log 3). -/
def State.resetRegisters (s : State) : State := { State.reset with port := s.port }

end Sys2Proof.Machine
end

