-- ==== Sys2Proof/Machine/Absorption.lean ====
section
/-!
DEFINITION. The command of the block-absorption pipeline's incremental path: UPDATE (42_absorption.md).
-/

namespace Sys2Proof.Machine

open Sys2Proof

/-- UPDATE (42_absorption.md R125). -/
def execUpdate (payload : List Byte) (s : State) : Answer :=
  if s.ph = .absorb then .next (pushBytes s payload).accept
  else .next (s.reject .ePhase)

end Sys2Proof.Machine
end

