-- ==== Sys2Proof/Machine/Finalization.lean ====
section
/-!
DEFINITION. The commands that produce a digest: FINISH and HASH (43_finalization.md).
-/

namespace Sys2Proof.Machine

open Sys2Proof

/-- FINISH (43_finalization.md R138): `PEND`, `FILL` and `LEN` are read, not cleared. -/
def execFinish (s : State) : Answer :=
  if s.ph = .absorb then
    let r := finalize s.v (finalLane s.pend s.len) s.rcC.toNat s.rcD.toNat
    .next { s with v := r.1, out := r.2, ph := .done }.accept
  else .next (s.reject .ePhase)

/-- HASH (43_finalization.md R140): the batch path, leaving `PEND`, `FILL` and `LEN` as the incremental path would. -/
def execHash (payload : List Byte) (s : State) : Answer :=
  if s.kv then
    let n := payload.length
    let v := batchAbsorb (initLanes s.k) payload s.rcC.toNat
    let pend := tail payload
    let len := BitVec.ofNat 8 (n % 256)
    let r := finalize v (finalLane pend len) s.rcC.toNat s.rcD.toNat
    .next { s with v := r.1, pend := pend, fill := BitVec.ofNat 3 (n % 8), len := len, out := r.2, ph := .done }.accept
  else .next (s.reject .eNokey)

end Sys2Proof.Machine
end

