-- ==== Sys2Proof/Machine/Setup.lean ====
section
/-!
DEFINITION. The commands that set the engine up: CFG, KEY and INIT (40_config_key_init.md). Preconditions are tested in the
order written there, before the first register write (40_config_key_init.md R90, 60_exceptions.md R163).
-/

namespace Sys2Proof.Machine

open Sys2Proof

/-- CFG (40_config_key_init.md R91): the phase is tested before the counts (60_exceptions.md R171). -/
def execCfg (c d : Byte) (s : State) : Answer :=
  if s.ph = .absorb then .next (s.reject .ePhase)
  else if c = 0 ∨ d = 0 then .next (s.reject .eRounds)
  else .next { s with rcC := c, rcD := d }.accept

/-- KEY (40_config_key_init.md R94), accepted in every phase. The decoder makes the length test; it stands here as well, for
a term that no frame encodes (log 7). -/
def execKey (secret : List Byte) (s : State) : Answer :=
  if secret.length = Config.secretBytes then
    .next { s with k := keyDerive secret, kv := true, ph := .idle }.accept
  else .next (s.reject .eKeylen)

/-- INIT (40_config_key_init.md R98), accepted in every phase once a key is loaded. -/
def execInit (s : State) : Answer :=
  if s.kv then
    .next { s with v := initLanes s.k, pend := 0, fill := 0, len := 0, ph := .absorb }.accept
  else .next (s.reject .eNokey)

end Sys2Proof.Machine
end

