-- ==== Sys2Proof/Machine/Dispatch.lean ====
section
/-!
DEFINITION. One arm per command.
-/

namespace Sys2Proof.Machine

open Sys2Proof

def exec (i : Instr) (s : State) : Host.Outcome State Fault Refusal :=
  match i with
  | .cfg c d => Sys2Proof.Machine.execCfg c d s
  | .key secret => Sys2Proof.Machine.execKey secret s
  | .init => Sys2Proof.Machine.execInit s
  | .update payload => Sys2Proof.Machine.execUpdate payload s
  | .finish => Sys2Proof.Machine.execFinish s
  | .hash payload => Sys2Proof.Machine.execHash payload s

end Sys2Proof.Machine
end

