-- ==== Sys2Proof/Machine/Frames.lean ====
section
/-!
DEFINITION. How the engine answers what the host delivers: one frame (30_encoding.md R71), one event of the port, and a
sequence of frames (20_memory.md R59).
-/

namespace Sys2Proof.Machine

open Sys2Proof

/-- The answer to one frame under the payload bound `max`: a rejection by the decoder, or the command's meaning. -/
def answerFrameFor (max : Option Nat) (F : Frame) (s : State) : Answer :=
  match decodeFor max F with
  | .cmd i => exec i s
  | .reject e => .next (s.reject e)

/-- The answer to one frame (30_encoding.md R71). -/
def answerFrame (F : Frame) (s : State) : Answer := answerFrameFor Config.maxPayload F s

/-- The answer to one event, with the machine as it is once the event is taken from the port. -/
def answerEvent (e : PortEvent) (s : State) : Answer :=
  match e with
  | .frame F => answerFrame F s
  | .reset => .next s.resetRegisters

/-- Go on with `f` from the next state; stop where there is none. -/
def andThen (a : Answer) (f : State → Answer) : Answer :=
  match a with
  | .next s => f s
  | .fault r => .fault r
  | .refused r => .refused r

/-- A sequence of frames, each executed to completion before the next (20_memory.md R59). -/
def runFrames : List Frame → State → Answer
  | [], s => .next s
  | F :: Fs, s => andThen (answerFrame F s) (runFrames Fs)

end Sys2Proof.Machine
end

