-- ==== Sys2Proof/Machine/Step.lean ====
section
/-!
DEFINITION. The step: the oldest event of the port is taken and answered; with nothing delivered the engine keeps its state.
-/

namespace Sys2Proof.Machine

open Sys2Proof

/-- One step. With nothing delivered the engine waits, its state unchanged (60_exceptions.md R164, R178; log 2). -/
def step (s : State) : Host.Outcome State Fault Refusal :=
  match nextEvent s with
  | none => .next s
  | some (e, s') => answerEvent e s'

/-- `s` with the frame of an opcode-table word delivered next (log 10). -/
def State.withFetchWord (s : State) (nbits w : Nat) : State :=
  { s with port := .frame (tableFrame nbits w) :: s.port }

end Sys2Proof.Machine
end

