-- ==== Sys2Proof/Machine/Assembler.lean ====
section
/-!
DEFINITION. The assembler of 30_encoding.md R81: one command per line, a mnemonic followed by its operands. A line is a list
of characters. The engine itself never sees it. Spellings that R81 does not settle are log 15.
-/

namespace Sys2Proof.Machine

open Sys2Proof

/-- The value of a hex digit; both letter cases are read. -/
def hexValue (ch : Char) : Option Nat :=
  let n := ch.toNat
  if 48 ≤ n ∧ n ≤ 57 then some (n - 48)
  else if 97 ≤ n ∧ n ≤ 102 then some (n - 87)
  else if 65 ≤ n ∧ n ≤ 70 then some (n - 55)
  else none

/-- A byte as two hex digits. -/
def hexByte : List Char → Option Byte
  | [a, b] =>
    match hexValue a, hexValue b with
    | some x, some y => some (BitVec.ofNat 8 (16 * x + y))
    | _, _ => none
  | _ => none

/-- The value of a string of decimal digits read after `acc`. -/
def decimalFrom (acc : Nat) : List Char → Option Nat
  | [] => some acc
  | ch :: rest => if 48 ≤ ch.toNat ∧ ch.toNat ≤ 57 then decimalFrom (10 * acc + (ch.toNat - 48)) rest else none

/-- A round count: a decimal number 0..255. -/
def decimalByte (tok : List Char) : Option Byte :=
  match tok with
  | [] => none
  | _ :: _ =>
    match decimalFrom 0 tok with
    | some n => if n ≤ 255 then some (BitVec.ofNat 8 n) else none
    | none => none

/-- The bytes of a list of hex operands. -/
def hexBytes : List (List Char) → Option (List Byte)
  | [] => some []
  | t :: ts =>
    match hexByte t, hexBytes ts with
    | some b, some bs => some (b :: bs)
    | _, _ => none

/-- The tokens of a line: words parted by spaces or tabs, a comma a token of its own; `;` starts a comment. -/
def tokensFrom (cur : List Char) : List Char → List (List Char)
  | [] => if cur = [] then [] else [cur]
  | ch :: rest =>
    let flush := fun more => if cur = [] then more else cur :: more
    if ch = ';' then flush []
    else if ch = ' ' ∨ ch = '\t' then flush (tokensFrom [] rest)
    else if ch = ',' then flush ([','] :: tokensFrom [] rest)
    else tokensFrom (cur ++ [ch]) rest

/-- The command of a line, `none` where the line is no line of the assembler. A KEY line with other than 16 bytes is legal
(30_encoding.md R81). -/
def parseLine (line : List Char) : Option Instr :=
  match tokensFrom [] line with
  | [] => none
  | m :: ops =>
    if m = ['C', 'F', 'G'] then
      match ops with
      | [c, [','], d] =>
        match decimalByte c, decimalByte d with
        | some c, some d => some (.cfg c d)
        | _, _ => none
      | _ => none
    else if m = ['K', 'E', 'Y'] then (hexBytes ops).map .key
    else if m = ['I', 'N', 'I', 'T'] then (if ops = [] then some .init else none)
    else if m = ['U', 'P', 'D', 'A', 'T', 'E'] then (hexBytes ops).map .update
    else if m = ['F', 'I', 'N', 'I', 'S', 'H'] then (if ops = [] then some .finish else none)
    else if m = ['H', 'A', 'S', 'H'] then (hexBytes ops).map .hash
    else none

/-- The frame of a line (30_encoding.md R81). -/
def assembleLine (line : List Char) : Option Frame := (parseLine line).map encode

/-- A hex digit, lower case. -/
def hexChar (n : Nat) : Char := if n < 10 then Char.ofNat (48 + n) else Char.ofNat (87 + n)

/-- A byte as two hex digits. -/
def hexText (b : Byte) : List Char := [hexChar (b.toNat / 16), hexChar (b.toNat % 16)]

/-- A byte as a decimal number. -/
def decimalText (b : Byte) : List Char :=
  let n := b.toNat
  let digit := fun k => Char.ofNat (48 + k)
  if n < 10 then [digit n]
  else if n < 100 then [digit (n / 10), digit (n % 10)]
  else [digit (n / 100), digit (n / 10 % 10), digit (n % 10)]

/-- Bytes as hex operands, each after a space. -/
def hexOperands (bs : List Byte) : List Char := bs.flatMap fun b => ' ' :: hexText b

/-- The line of a command (30_encoding.md R81). -/
def asmLine : Instr → List Char
  | .cfg c d => ['C', 'F', 'G', ' '] ++ decimalText c ++ [',', ' '] ++ decimalText d
  | .key secret => ['K', 'E', 'Y'] ++ hexOperands secret
  | .init => ['I', 'N', 'I', 'T']
  | .update payload => ['U', 'P', 'D', 'A', 'T', 'E'] ++ hexOperands payload
  | .finish => ['F', 'I', 'N', 'I', 'S', 'H']
  | .hash payload => ['H', 'A', 'S', 'H'] ++ hexOperands payload

end Sys2Proof.Machine
end

