-- ==== Sys2Proof/Machine/Trace.lean ====
section
/-!
DEFINITION. The elementary operations behind a command: the 14 operations of one round (41_round.md R111, R117), and the
sequence of operations a command performs on the working lanes. The sequence is what the spec's data-independence rule speaks
about (70_reset_and_hazards.md R193) and what its round counts count (70_reset_and_hazards.md R194). The meanings do not use
it; that they agree with it is a claim. DESIGN CHOICE, log 11.
-/

namespace Sys2Proof.Machine

open Sys2Proof

/-- A working lane by its number (00_scope.md R10). -/
inductive LaneName where
  | v0 | v1 | v2 | v3
deriving DecidableEq, Repr

/-- `v[i]`. -/
def getLane (v : Lanes) : LaneName → Word
  | .v0 => v.v0
  | .v1 => v.v1
  | .v2 => v.v2
  | .v3 => v.v3

/-- `v[i] <- w`. -/
def setLane (v : Lanes) (w : Word) : LaneName → Lanes
  | .v0 => { v with v0 := w }
  | .v1 => { v with v1 := w }
  | .v2 => { v with v2 := w }
  | .v3 => { v with v3 := w }

/-- One operation of the round: `x += y`, `x = rotl(x, n)` or `x ^= y`. -/
inductive RoundOp where
  | add (x y : LaneName)
  | rot (x : LaneName) (n : Nat)
  | xor (x y : LaneName)
deriving DecidableEq, Repr

/-- The effect of one operation of the round. -/
def applyRoundOp (v : Lanes) : RoundOp → Lanes
  | .add x y => setLane v (getLane v x + getLane v y) x
  | .rot x n => setLane v (rotl (getLane v x) n) x
  | .xor x y => setLane v (getLane v x ^^^ getLane v y) x

/-- The fixed sequence of operations of one round, in the order of the trace in 41_round.md R118. -/
def roundOps : List RoundOp :=
  [.add .v0 .v1, .add .v2 .v3,
   .rot .v1 13, .rot .v3 16,
   .xor .v1 .v0, .xor .v3 .v2, .rot .v0 32,
   .add .v2 .v1, .add .v0 .v3,
   .rot .v1 17, .rot .v3 21,
   .xor .v1 .v2, .xor .v3 .v0, .rot .v2 32]

/-- One operation of a command on the working lanes; the writers are those of 10_state.md R23. -/
inductive LaneOp where
  /-- The lanes of `InitLanes`. -/
  | load (v : Lanes)
  /-- `v3 ^= m`. -/
  | injectV3 (m : Word)
  /-- One `SipRound`. -/
  | round
  /-- `v0 ^= m`. -/
  | injectV0 (m : Word)
  /-- `v2 ^= 0xff`. -/
  | tagV2
deriving DecidableEq, Repr

/-- The effect of one operation on the lanes. -/
def applyLaneOp (v : Lanes) : LaneOp → Lanes
  | .load w => w
  | .injectV3 m => xorV3 m v
  | .round => sipRound v
  | .injectV0 m => xorV0 m v
  | .tagV2 => xorV2 Config.finalTag v

/-- What an observer of the sequence of operations sees: which operation it is, without its data. -/
inductive LaneOpKind where
  | load | injectV3 | round | injectV0 | tagV2
deriving DecidableEq, Repr

/-- See `LaneOpKind`. -/
def laneOpKind : LaneOp → LaneOpKind
  | .load _ => .load
  | .injectV3 _ => .injectV3
  | .round => .round
  | .injectV0 _ => .injectV0
  | .tagV2 => .tagV2

/-- The operations of `AbsorbBlock` (42_absorption.md R121). -/
def blockOps (m : Word) (c : Nat) : List LaneOp := .injectV3 m :: (List.replicate c .round ++ [.injectV0 m])

/-- The operations of `Finalize` (43_finalization.md R137). -/
def finalOps (mf : Word) (c d : Nat) : List LaneOp := blockOps mf c ++ .tagV2 :: List.replicate d .round

/-- The operations of `BatchAbsorb` (42_absorption.md R127). -/
def batchOps (P : List Byte) (c : Nat) : List LaneOp :=
  (List.range (P.length / 8)).flatMap fun j => blockOps (memRead P (8 * j) 8) c

/-- The operations of `PushByte` over a payload, from a pending lane (42_absorption.md R124). -/
def pushOps (c : Nat) : Word → BitVec 3 → List Byte → List LaneOp
  | _, _, [] => []
  | pend, fill, b :: bs =>
    let pend' := pend ||| (zext64 b <<< (8 * fill.toNat))
    if fill.toNat + 1 = 8 then blockOps pend' c ++ pushOps c 0 0 bs
    else pushOps c pend' (fill + 1) bs

/-- The operations that a command performs on the lanes in a state; none where it is rejected. -/
def laneOps (i : Instr) (s : State) : List LaneOp :=
  match i with
  | .cfg _ _ => []
  | .key _ => []
  | .init => if s.kv then [.load (initLanes s.k)] else []
  | .update P => if s.ph = .absorb then pushOps s.rcC.toNat s.pend s.fill P else []
  | .finish => if s.ph = .absorb then finalOps (finalLane s.pend s.len) s.rcC.toNat s.rcD.toNat else []
  | .hash P =>
    if s.kv then
      .load (initLanes s.k) :: (batchOps P s.rcC.toNat
        ++ finalOps (finalLane (tail P) (BitVec.ofNat 8 (P.length % 256))) s.rcC.toNat s.rcD.toNat)
    else []

/-- How many rounds a command applies in a state (70_reset_and_hazards.md R194). -/
def roundCount (i : Instr) (s : State) : Nat := (laneOps i s).countP fun o => decide (laneOpKind o = .round)

end Sys2Proof.Machine
end

