-- ==== Sys2Proof/Machine/Drivers.lean ====
section
/-!
DEFINITION. The three driver shapes as frame sequences (44_drivers.md R151 to R153), and the message of a session
(20_memory.md R51).
-/

namespace Sys2Proof.Machine

open Sys2Proof

/-- What all three shapes begin with: CFG, which may be omitted when the counts are already held, and KEY (44_drivers.md
R151). -/
def keyedStart (counts : Option (Byte × Byte)) (key : List Byte) : List Frame :=
  match counts with
  | none => [encode (.key key)]
  | some (c, d) => [encode (.cfg c d), encode (.key key)]

/-- The Batch Hasher's one call (44_drivers.md R151). -/
def batchHasher (counts : Option (Byte × Byte)) (key data : List Byte) : List Frame :=
  keyedStart counts key ++ [encode (.hash data)]

/-- The Keyed Container: construction, the calls made earlier, and the call in question (44_drivers.md R152). -/
def keyedContainer (counts : Option (Byte × Byte)) (key : List Byte) (earlier : List (List Byte)) (data : List Byte) :
    List Frame :=
  keyedStart counts key ++ earlier.map (fun d => encode (.hash d)) ++ [encode (.hash data)]

/-- The Streaming Digest: construction, any number of updates, one finish (44_drivers.md R153). -/
def streamingDigest (counts : Option (Byte × Byte)) (key : List Byte) (chunks : List (List Byte)) : List Frame :=
  keyedStart counts key ++ encode .init :: chunks.map (fun d => encode (.update d)) ++ [encode .finish]

/-- What a frame received inside a session adds to the message: the payload of an UPDATE, and nothing of any other frame
(20_memory.md R51). -/
def sessionPayload (F : Frame) : List Byte :=
  match decode F with
  | .cmd (.update P) => P
  | _ => []

/-- The message of a session whose frames between INIT and FINISH are `Fs`, in arrival order (20_memory.md R51). -/
def sessionMessage (Fs : List Frame) : List Byte := Fs.flatMap sessionPayload

/-- Frames that leave an open session open: UPDATE, and those the engine rejects in it, which are CFG and every frame the
decoder rejects. -/
def keepsSession (F : Frame) : Bool :=
  match decode F with
  | .cmd (.update _) => true
  | .cmd (.cfg _ _) => true
  | .reject _ => true
  | .cmd (.key _) => false
  | .cmd .init => false
  | .cmd .finish => false
  | .cmd (.hash _) => false

end Sys2Proof.Machine
end

