-- ==== Sys2Proof/Safety.lean ====
section
/-!
DEFINITION. The terms claims use: what a safe run is, the invariants of the reachable states (10_state.md R34), the reachable
states themselves, and the response a frame gets by the spec's order of tests (60_exceptions.md R171).
-/

namespace Sys2Proof.Machine

open Sys2Proof

/-- The engine goes on: the answer is a next state. -/
def goesOn (a : Answer) : Prop := ∃ t, a = .next t

/-- The frame is accepted in the state: its response is OK (60_exceptions.md R160). -/
def accepted (F : Frame) (s : State) : Prop := ∃ t, answerFrame F s = .next t ∧ t.err = .ok

/-- A safe run: every frame of the sequence is answered OK (60_exceptions.md R165). -/
def allAccepted : List Frame → State → Prop
  | [], _ => True
  | F :: Fs, s => ∃ t, answerFrame F s = .next t ∧ t.err = .ok ∧ allAccepted Fs t

/-- The invariants of the reachable states, in the order of 10_state.md R34. -/
structure StateInv (s : State) : Prop where
  /-- (a) -/
  fill_range : 0 ≤ s.fill.toNat ∧ s.fill.toNat ≤ 7
  /-- (b) -/
  pend_clean : s.pend.toNat < 2 ^ (8 * s.fill.toNat)
  /-- (b), in particular -/
  pend_top : byteOf s.pend 7 = 0
  /-- (c) -/
  len_fill : s.len.toNat % 8 = s.fill.toNat
  /-- (d) -/
  absorb_keyed : s.ph = .absorb → s.kv = true
  /-- (d) -/
  done_keyed : s.ph = .done → s.kv = true
  /-- (e) -/
  c_range : 1 ≤ s.rcC.toNat ∧ s.rcC.toNat ≤ 255
  /-- (e) -/
  d_range : 1 ≤ s.rcD.toNat ∧ s.rcD.toNat ≤ 255
  /-- (f) -/
  phase_legal : phaseBits s.ph = 0 ∨ phaseBits s.ph = 1 ∨ phaseBits s.ph = 2
  /-- (g) -/
  code_legal : (codeByte s.err).toNat ≤ 6

/-- In `DONE` the output port shows the fold of the working lanes (43_finalization.md R138). -/
def OutputCurrent (s : State) : Prop := s.ph = .done → s.out = outputFold s.v

/-- The states some run reaches: from reset, with whatever the host will deliver, by steps. -/
inductive Reachable : State → Prop where
  | reset (port : List PortEvent) : Reachable { State.reset with port := port }
  | step {s t : State} (hs : Reachable s) (h : step s = .next t) : Reachable t

/-- The 250 reserved opcodes (30_encoding.md R76). -/
def reservedOpcode (op : Byte) : Bool := decide (op.toNat = 0 ∨ 7 ≤ op.toNat)

/-- The response to a frame: the first failing test of the fixed order (60_exceptions.md R171). It reads the opcode, the
frame's length, CFG's two counts, `KV` and `PH`. -/
def responseTo (F : Frame) (kv : Bool) (ph : Phase) : Code :=
  match F with
  | [] => .eFrame
  | op :: rest =>
    if reservedOpcode op then .eIllegal
    else if op = 0x02#8 ∧ F.length ≠ 17 then .eKeylen
    else if (op = 0x01#8 ∧ F.length ≠ 3) ∨ ((op = 0x03#8 ∨ op = 0x05#8) ∧ F.length ≠ 1) then .eFrame
    else if (op = 0x01#8 ∧ ph = .absorb) ∨ ((op = 0x04#8 ∨ op = 0x05#8) ∧ ph ≠ .absorb) then .ePhase
    else if (op = 0x03#8 ∨ op = 0x06#8) ∧ kv = false then .eNokey
    else if op = 0x01#8 ∧ (rest[0]? = some 0 ∨ rest[1]? = some 0) then .eRounds
    else .ok

/-- The responses a frame with a command's opcode can end with (60_exceptions.md R162). -/
def commandResponses (op : Byte) : List Code :=
  if op = 0x01#8 then [.ok, .eFrame, .eRounds, .ePhase]
  else if op = 0x02#8 then [.ok, .eKeylen]
  else if op = 0x03#8 then [.ok, .eFrame, .eNokey]
  else if op = 0x04#8 then [.ok, .ePhase]
  else if op = 0x05#8 then [.ok, .eFrame, .ePhase]
  else if op = 0x06#8 then [.ok, .eNokey]
  else [.eIllegal]

/-- When a command is allowed (10_state.md R26). -/
def allowedIn (i : Instr) (s : State) : Prop :=
  match i with
  | .cfg _ _ => s.ph = .idle ∨ s.ph = .done
  | .key _ => True
  | .init => s.kv = true
  | .update _ => s.ph = .absorb
  | .finish => s.ph = .absorb
  | .hash _ => s.kv = true

/-- The phase after an accepted command (10_state.md R26). -/
def phaseAfter (i : Instr) (ph : Phase) : Phase :=
  match i with
  | .cfg _ _ => ph
  | .key _ => .idle
  | .init => .absorb
  | .update _ => .absorb
  | .finish => .done
  | .hash _ => .done

end Sys2Proof.Machine
end

