-- ==== Sys2Proof/Certificates/Slice0/Obligations.lean ====
section
/-!
DEFINITION. The statements for the provers. Each docstring names the rule it formalises; a statement that rests on a choice
of the model says so and names the log entry.
-/

open Sys2Proof Sys2Proof.Machine

/-! ## Frames, decoding and encoding -/

/-- 30_encoding.md R75 and 95_test_vectors.md section 9.1: frames written out byte by byte decode to what they stand for. -/
def Obligations.WrittenFramesDecode : Prop :=
  decode [0x01, 0x02, 0x04] = .cmd (.cfg 2 4) ∧
  decode [0x02, 0x00, 0x01, 0x02, 0x03, 0x04, 0x05, 0x06, 0x07, 0x08, 0x09, 0x0a, 0x0b, 0x0c, 0x0d, 0x0e, 0x0f]
    = .cmd (.key [0, 1, 2, 3, 4, 5, 6, 7, 8, 9, 10, 11, 12, 13, 14, 15]) ∧
  decode [0x03] = .cmd .init ∧
  decode [0x04, 0x05] = .cmd (.update [0x05]) ∧
  decode [0x05] = .cmd .finish ∧
  decode [0x06, 0x06, 0x06] = .cmd (.hash [0x06, 0x06]) ∧
  decode [0x81] = .reject .eIllegal

/-- 30_encoding.md R79: the decoder, test by test, with the rule's examples, and the encoder as its inverse on every command
whose KEY payload has 16 bytes. -/
def Obligations.DecoderTestsEmptinessOpcodeLength : Prop :=
  decode [] = .reject .eFrame ∧
  (∀ c d, decode [0x01, c, d] = .cmd (.cfg c d)) ∧
  (∀ rest, rest.length ≠ 2 → decode (0x01 :: rest) = .reject .eFrame) ∧
  (∀ P, P.length = 16 → decode (0x02 :: P) = .cmd (.key P)) ∧
  (∀ P, P.length ≠ 16 → decode (0x02 :: P) = .reject .eKeylen) ∧
  decode [0x03] = .cmd .init ∧
  (∀ rest, rest.length ≠ 0 → decode (0x03 :: rest) = .reject .eFrame) ∧
  (∀ P, decode (0x04 :: P) = .cmd (.update P)) ∧
  decode [0x05] = .cmd .finish ∧
  (∀ rest, rest.length ≠ 0 → decode (0x05 :: rest) = .reject .eFrame) ∧
  (∀ P, decode (0x06 :: P) = .cmd (.hash P)) ∧
  (∀ op rest, op ≠ 0x01 → op ≠ 0x02 → op ≠ 0x03 → op ≠ 0x04 → op ≠ 0x05 → op ≠ 0x06 →
    decode (op :: rest) = .reject .eIllegal) ∧
  decode [0x07, 0x00, 0x00] = .reject .eIllegal ∧ decode [0x01, 0x02] = .reject .eFrame ∧
  decode [0x02] = .reject .eKeylen ∧
  (∀ c d, encode (.cfg c d) = [0x01, c, d]) ∧ (∀ P, encode (.key P) = 0x02 :: P) ∧ encode .init = [0x03] ∧
  (∀ P, encode (.update P) = 0x04 :: P) ∧ encode .finish = [0x05] ∧ (∀ P, encode (.hash P) = 0x06 :: P) ∧
  (∀ i, (∀ P, i = .key P → P.length = 16) → decode (encode i) = .cmd i)

/-- 30_encoding.md R79, R77: under every payload bound, a frame decodes to a command exactly when the command is well formed
and the frame is its encoding; so decoding an encoding gives the command back, and each command has one frame. -/
def Obligations.DecodeAndEncodeAgree : Prop :=
  ∀ (max : Option Nat) (F : Frame) (i : Instr),
    decodeFor max F = .cmd i ↔ wellFormedFor max i = true ∧ F = encode i

/-- 30_encoding.md R76: the 250 reserved opcodes are rejected with E_ILLEGAL whatever the frame's length and change only
`ERR`; nothing executes as a no-op; every byte sequence has an answer. -/
def Obligations.ReservedOpcodesAreIllegal : Prop :=
  (∀ op : Byte, reservedOpcode op = true ↔ op = 0x00 ∨ (0x07 ≤ op.toNat ∧ op.toNat ≤ 0xff)) ∧
  ((List.range 256).filter fun n => reservedOpcode (BitVec.ofNat 8 n)).length = 250 ∧
  reservedOpcode 0x00 = true ∧ reservedOpcode 0xff = true ∧
  (∀ op rest s, reservedOpcode op = true →
    decode (op :: rest) = .reject .eIllegal ∧ answerFrame (op :: rest) s = .next { s with err := .eIllegal }) ∧
  (∀ s, s.ph = .absorb → answerFrame [0x04] s = .next { s with err := .ok }) ∧
  (∀ F s, ∃ t, answerFrame F s = .next t)

/-- 30_encoding.md R77: wrong lengths, under every payload bound, and the bound itself: a longer payload is E_FRAME before any
effect, a frame within the bound decodes as under no bound. Which code a KEY frame gets that breaks both rules is the model's
choice (log 4): the statement gives it E_KEYLEN. -/
def Obligations.LengthViolationsAndPayloadBound : Prop :=
  (∀ max, decodeFor max [] = .reject .eFrame) ∧
  (∀ max rest, rest.length ≠ 2 → decodeFor max (0x01 :: rest) = .reject .eFrame) ∧
  (∀ max rest, rest.length ≠ 0 → decodeFor max (0x03 :: rest) = .reject .eFrame) ∧
  (∀ max rest, rest.length ≠ 0 → decodeFor max (0x05 :: rest) = .reject .eFrame) ∧
  (∀ max P, P.length ≠ 16 → decodeFor max (0x02 :: P) = .reject .eKeylen) ∧
  (∀ m P s, P.length > m →
    answerFrameFor (some m) (0x04 :: P) s = .next { s with err := .eFrame } ∧
    answerFrameFor (some m) (0x06 :: P) s = .next { s with err := .eFrame } ∧
    (P.length = 16 → answerFrameFor (some m) (0x02 :: P) s = .next { s with err := .eFrame })) ∧
  (∀ m F, F.length ≤ m + 1 → decodeFor (some m) F = decode F) ∧
  Config.maxPayload = none

/-- 30_encoding.md R81: the line of every command assembles to its frame. The spelling details are the model's choice (log
15). -/
def Obligations.AssemblerWritesTheFrame : Prop :=
  ∀ i : Instr, assembleLine (asmLine i) = some (encode i)

/-! ## The step -/

/-- 30_encoding.md R70, R71; 70_reset_and_hazards.md R185: a step takes the oldest event of the port: a frame that decodes to
a command runs that command's meaning, a frame that does not is rejected, a reset resets; with nothing delivered nothing
changes. The port field is the model's choice (log 1, 2, 10). -/
def Obligations.StepRunsTheDecodedFrame : Prop :=
  (∀ s F rest i, s.port = .frame F :: rest → decode F = .cmd i → step s = exec i { s with port := rest }) ∧
  (∀ s F rest e, s.port = .frame F :: rest → decode F = .reject e →
    step s = .next { s with port := rest, err := e }) ∧
  (∀ s rest, s.port = .reset :: rest → step s = .next { State.reset with port := rest }) ∧
  (∀ s, s.port = [] → step s = .next s) ∧
  (∀ s nbits w i, decodeTableWord nbits w = some i → step (s.withFetchWord nbits w) = exec i s)

/-- 30_encoding.md R71, 60_exceptions.md R165: the step is total: no fault, no stuck state, no refusal, whatever the state,
the command, the frame or the event. -/
def Obligations.NothingStopsTheEngine : Prop :=
  (∀ s, ∃ t, step s = .next t) ∧ (∀ F s, ∃ t, answerFrame F s = .next t) ∧ (∀ i s, ∃ t, exec i s = .next t)

/-- 20_memory.md R59: the state after a run is the left fold of the step over the frames, in arrival order; a later part of a
sequence depends on the earlier part through the state alone. The port field is the model's choice (log 1). -/
def Obligations.RunIsTheFoldOverItsFrames : Prop :=
  (∀ (Fs : List Frame) (s : State) (rest : List PortEvent), s.port = Fs.map .frame ++ rest →
    Host.Core.run core Fs.length s = runFrames Fs { s with port := rest }) ∧
  (∀ (As Bs : List Frame) (s : State), runFrames (As ++ Bs) s = andThen (runFrames As s) (runFrames Bs))

/-- 10_state.md R36, 30_encoding.md R71: a command neither reads nor writes what the host has still to deliver. The port field
is the model's choice (log 1). -/
def Obligations.CommandsDoNotSeeThePort : Prop :=
  ∀ (i : Instr) (s t : State) (p : List PortEvent), exec i s = .next t →
    t.port = s.port ∧ exec i { s with port := p } = .next { t with port := p }

/-- 10_state.md R37: reset loads every register with its reset value. -/
def Obligations.ResetLoadsEveryRegister : Prop :=
  ∀ (s : State) (rest : List PortEvent), s.port = .reset :: rest → ∃ t, step s = .next t ∧
    t.k.k0 = 0 ∧ t.k.k1 = 0 ∧ t.v.v0 = 0 ∧ t.v.v1 = 0 ∧ t.v.v2 = 0 ∧ t.v.v3 = 0 ∧ t.pend = 0 ∧ t.fill = 0 ∧ t.len = 0 ∧
    t.rcC = 2 ∧ t.rcD = 4 ∧ t.kv = false ∧ t.ph = .idle ∧ t.out = 0 ∧ t.err = .ok ∧ { t with port := [] } = State.reset

/-! ## Configuration, key derivation, initialization -/

/-- 40_config_key_init.md R91: CFG whole: encoding, preconditions in their order, registers written, rejections, example. -/
def Obligations.CfgSetsTheRoundCounts : Prop :=
  (∀ c d, encode (.cfg c d) = [0x01, c, d] ∧ decode [0x01, c, d] = .cmd (.cfg c d)) ∧
  (∀ rest, (0x01 :: rest).length ≠ 3 → decode (0x01 :: rest) = .reject .eFrame) ∧
  (∀ c d s, s.ph = .absorb → exec (.cfg c d) s = .next { s with err := .ePhase }) ∧
  (∀ c d s, s.ph ≠ .absorb → c = 0 ∨ d = 0 → exec (.cfg c d) s = .next { s with err := .eRounds }) ∧
  (∀ c d s, s.ph ≠ .absorb → c ≠ 0 → d ≠ 0 →
    exec (.cfg c d) s = .next { s with rcC := c, rcD := d, err := .ok }) ∧
  answerFrame [0x01, 0x01, 0x03] State.reset = .next { State.reset with rcC := 1, rcD := 3, err := .ok }

/-- 40_config_key_init.md R93: `KeyDerive` byte by byte, and that it is a bijection between 16-byte strings and pairs of
words. -/
def Obligations.KeyDeriveIsABijection : Prop :=
  (∀ P : List Byte, P.length = 16 → keyDerive P = ⟨le (P.take 8), le (P.drop 8)⟩) ∧
  (∀ P : List Byte, P.length = 16 → ∀ j, j < 8 →
    byteOf (keyDerive P).k0 j = P.getD j 0 ∧ byteOf (keyDerive P).k1 j = P.getD (8 + j) 0) ∧
  (∀ k : KeyLanes, ∃ P : List Byte, P.length = 16 ∧ keyDerive P = k ∧
    ∀ Q : List Byte, Q.length = 16 → keyDerive Q = k → Q = P) ∧
  keyDerive [0, 1, 2, 3, 4, 5, 6, 7, 8, 9, 10, 11, 12, 13, 14, 15] = ⟨0x0706050403020100, 0x0f0e0d0c0b0a0908⟩

/-- 40_config_key_init.md R94: KEY whole: encoding, the one precondition, registers written, the corner cases: a rejected KEY
leaves the old key, and until the next INIT command UPDATE and FINISH are rejected. -/
def Obligations.KeyLoadsTheKeyLanes : Prop :=
  (∀ P : List Byte, P.length = 16 → encode (.key P) = 0x02 :: P ∧ decode (0x02 :: P) = .cmd (.key P)) ∧
  (∀ P s, P.length = 16 →
    exec (.key P) s = .next { s with k := keyDerive P, kv := true, ph := .idle, err := .ok }) ∧
  (∀ P s, P.length ≠ 16 → answerFrame (0x02 :: P) s = .next { s with err := .eKeylen }) ∧
  (∀ (P : List Byte) (s t u : State) (Fs : List Frame), P.length = 16 → exec (.key P) s = .next t →
    (∀ F ∈ Fs, decode F ≠ .cmd .init) → runFrames Fs t = .next u →
    (∀ Q, exec (.update Q) u = .next { u with err := .ePhase }) ∧ exec .finish u = .next { u with err := .ePhase }) ∧
  answerFrame [0x02, 0x00, 0x01, 0x02, 0x03, 0x04, 0x05, 0x06, 0x07, 0x08, 0x09, 0x0a, 0x0b, 0x0c, 0x0d, 0x0e, 0x0f]
      State.reset
    = .next { State.reset with k := ⟨0x0706050403020100, 0x0f0e0d0c0b0a0908⟩, kv := true, ph := .idle, err := .ok }

/-- 40_config_key_init.md R96, R98: INIT whole: encoding, precondition, the four lanes, the cleared session registers,
rejections, `OUT` kept until the next FINISH or HASH, example. -/
def Obligations.InitOpensASession : Prop :=
  encode .init = [0x03] ∧ decode [0x03] = .cmd .init ∧
  (∀ rest, (0x03 :: rest).length ≠ 1 → decode (0x03 :: rest) = .reject .eFrame) ∧
  (∀ s, s.kv = false → exec .init s = .next { s with err := .eNokey }) ∧
  (∀ k : KeyLanes, initLanes k =
    ⟨Config.C0 ^^^ k.k0, Config.C1 ^^^ k.k1, Config.C2 ^^^ k.k0, Config.C3 ^^^ k.k1⟩) ∧
  (∀ s, s.kv = true →
    exec .init s = .next { s with v := initLanes s.k, pend := 0, fill := 0, len := 0, ph := .absorb, err := .ok }) ∧
  (∀ (s t u : State) (Fs : List Frame), exec .init s = .next t →
    (∀ F ∈ Fs, decode F ≠ .cmd .finish ∧ ∀ P, decode F ≠ .cmd (.hash P)) → runFrames Fs t = .next u → u.out = s.out) ∧
  (∀ s, s.kv = true → s.k = ⟨0x0706050403020100, 0x0f0e0d0c0b0a0908⟩ →
    exec .init s = .next { s with
      v := ⟨0x7469686173716475, 0x6b617f6d656e6665, 0x6b7f62616d677361, 0x7b6b696e727e6c7b⟩,
      pend := 0, fill := 0, len := 0, ph := .absorb, err := .ok })

/-- 40_config_key_init.md, section 3; the spec marks the sentence (R99) as derived from R98, R136, R138: INIT followed by
FINISH is legal and hashes the empty message; the final lane is zero. -/
def Obligations.InitFinishHashesTheEmptyMessage : Prop :=
  ∀ s : State, s.kv = true → ∃ t u, exec .init s = .next t ∧ finalLane t.pend t.len = 0 ∧
    exec .finish t = .next u ∧ u.err = .ok ∧ exec (.hash []) s = .next u

/-! ## The round and its operators -/

/-- 00_scope.md R8, 41_round.md R115: addition wraps at 2^64; `rotl` by `0 < n < 64` takes bit `i` to bit `(i + n) mod 64`; a
rotation by 32 swaps the halves. -/
def Obligations.WordOperatorsWrapAndRotate : Prop :=
  (∀ a b : Word, (a + b).toNat = (a.toNat + b.toNat) % 2 ^ 64) ∧
  (∀ (x : Word) (n i : Nat), 0 < n → n < 64 → i < 64 → (rotl x n).getLsbD ((i + n) % 64) = x.getLsbD i) ∧
  (∀ x : Word, rotl x 32 = x.extractLsb' 0 32 ++ x.extractLsb' 32 32)

/-- 41_round.md R111: the round is the written sequence of 14 operations, in that order, with its rotation amounts and its
counts of additions, rotations and XORs. -/
def Obligations.RoundIsItsFourteenOperations : Prop :=
  (∀ v : Lanes, sipRound v = roundOps.foldl applyRoundOp v) ∧
  roundOps = [.add .v0 .v1, .add .v2 .v3, .rot .v1 13, .rot .v3 16, .xor .v1 .v0, .xor .v3 .v2, .rot .v0 32,
    .add .v2 .v1, .add .v0 .v3, .rot .v1 17, .rot .v3 21, .xor .v1 .v2, .xor .v3 .v0, .rot .v2 32] ∧
  (roundOps.filterMap fun o => match o with | .rot _ n => some n | .add _ _ => none | .xor _ _ => none)
    = [13, 16, 32, 17, 21, 32] ∧
  (roundOps.countP fun o => match o with | .add _ _ => true | .rot _ _ => false | .xor _ _ => false) = 4 ∧
  (roundOps.countP fun o => match o with | .add _ _ => false | .rot _ _ => true | .xor _ _ => false) = 6 ∧
  (roundOps.countP fun o => match o with | .add _ _ => false | .rot _ _ => false | .xor _ _ => true) = 4

/-- 41_round.md: the round in single-assignment form, which the spec (R112) marks as derived from R111. -/
def Obligations.RoundInSingleAssignmentForm : Prop :=
  ∀ a b c d a1 b1 b2 b3 b4 a2 a3 c1 c2 c3 d1 d2 d3 d4 : Word,
    a1 = a + b → c1 = c + d → b1 = rotl b 13 → d1 = rotl d 16 → b2 = b1 ^^^ a1 → d2 = d1 ^^^ c1 → a2 = rotl a1 32 →
    c2 = c1 + b2 → a3 = a2 + d2 → b3 = rotl b2 17 → d3 = rotl d2 21 → b4 = b3 ^^^ c2 → d4 = d3 ^^^ a3 →
    c3 = rotl c2 32 → sipRound ⟨a, b, c, d⟩ = ⟨a3, b4, c3, d4⟩

/-- 41_round.md, properties the spec (R116) marks as derived from R112: the round is a bijection with the stated inverse, the
zero state is a fixed point, and the result depends on the four lanes alone. -/
def Obligations.RoundIsABijection : Prop :=
  (∀ v : Lanes, sipRoundInv (sipRound v) = v) ∧ (∀ v : Lanes, sipRound (sipRoundInv v) = v) ∧
  Function.Bijective sipRound ∧ sipRound ⟨0, 0, 0, 0⟩ = ⟨0, 0, 0, 0⟩ ∧
  (∀ v w : Lanes, v.v0 = w.v0 → v.v1 = w.v1 → v.v2 = w.v2 → v.v3 = w.v3 → sipRound v = sipRound w)

/-- 41_round.md R114, 42_absorption.md R122: repeated rounds compose, and a zero block is `c` rounds. -/
def Obligations.RoundsCompose : Prop :=
  (∀ v : Lanes, rounds v 0 = v) ∧ (∀ (v : Lanes) (n : Nat), rounds v (n + 1) = sipRound (rounds v n)) ∧
  (∀ (v : Lanes) (m n : Nat), rounds v (m + n) = rounds (rounds v m) n) ∧
  (∀ (v : Lanes) (c : Nat), absorbBlock v 0 c = rounds v c)

/-! ## Bytes and words -/

/-- 00_scope.md R9: `LE` of at most eight bytes is their weighted sum; byte `j` of it is byte `j` of the sequence and zero
past its end; `LE()` is 0. -/
def Obligations.LittleEndianIsTheWeightedSum : Prop :=
  (∀ bs : List Byte, bs.length ≤ 8 →
    (le bs).toNat = ((List.range bs.length).map fun j => (bs.getD j 0).toNat * 2 ^ (8 * j)).sum ∧
    (∀ j, j < bs.length → byteOf (le bs) j = bs.getD j 0) ∧
    (∀ j, bs.length ≤ j → j ≤ 7 → byteOf (le bs) j = 0)) ∧
  le [] = 0

/-- 20_memory.md, mixed width, which the spec (R53) marks as derived from R9: an 8-byte payload read is the eight 1-byte
reads, each shifted to its place. -/
def Obligations.BlockReadIsEightByteReads : Prop :=
  ∀ (P : List Byte) (i : Nat), i + 8 ≤ P.length →
    memRead P i 8 = ((List.range 8).map fun j => memRead P (i + j) 1 <<< (8 * j)).sum ∧
    (∀ j, j < 8 → byteOf (memRead P i 8) j = P.getD (i + j) 0 ∧ byteOf (memRead P (i + j) 1) 0 = P.getD (i + j) 0)

/-- 42_absorption.md R128: the tail holds the `n mod 8` bytes after the boundary and zeros above them. -/
def Obligations.TailHoldsTheLeftoverBytes : Prop :=
  ∀ P : List Byte,
    tail P = memRead P (8 * (P.length / 8)) (P.length % 8) ∧
    tail P = le (P.drop (8 * (P.length / 8))) ∧
    (P.length % 8 = 0 → tail P = 0) ∧
    (∀ j, j < P.length % 8 → byteOf (tail P) j = P.getD (8 * (P.length / 8) + j) 0) ∧
    (∀ j, P.length % 8 ≤ j → j ≤ 7 → byteOf (tail P) j = 0)

/-- 43_finalization.md R136: the final lane byte by byte, where the engine builds it (FINISH from `PEND`, HASH from the tail),
that the engine's pending lane has a zero byte 7, and the rule's four examples. -/
def Obligations.FinalLaneIsTailAndTag : Prop :=
  (∀ (w : Word) (n : Byte), finalLane w n = w ||| (n.setWidth 64 <<< 56)) ∧
  (∀ (T : List Byte) (n : Byte), T.length ≤ 7 →
    (∀ j, j < T.length → byteOf (finalLane (le T) n) j = T.getD j 0) ∧
    (∀ j, T.length ≤ j → j ≤ 6 → byteOf (finalLane (le T) n) j = 0) ∧
    byteOf (finalLane (le T) n) 7 = n) ∧
  (∀ s t, s.ph = .absorb → exec .finish s = .next t →
    t.out = (finalize s.v (finalLane s.pend s.len) s.rcC.toNat s.rcD.toNat).2) ∧
  (∀ P s t, s.kv = true → exec (.hash P) s = .next t →
    t.out = (finalize (batchAbsorb (initLanes s.k) P s.rcC.toNat) (finalLane (tail P) t.len) s.rcC.toNat s.rcD.toNat).2) ∧
  (∀ s, Reachable s → byteOf s.pend 7 = 0) ∧
  finalLane (tail []) 0 = 0x0000000000000000 ∧ finalLane (tail [0x00]) 1 = 0x0100000000000000 ∧
  finalLane (tail [0, 1, 2, 3, 4, 5, 6, 7, 8, 9, 10, 11, 12, 13, 14]) 15 = 0x0f0e0d0c0b0a0908 ∧
  finalLane (tail [0, 1, 2, 3, 4, 5, 6, 7]) 8 = 0x0800000000000000

/-- 43_finalization.md, length-tag truncation (R139, marked as derived from R136, R137): the tag that HASH absorbs is the low
byte of the message length, so messages whose lengths differ by a multiple of 256 carry the same tag. -/
def Obligations.LengthTagIsTheLowByte : Prop :=
  ∀ (P : List Byte) (s t : State), s.kv = true → exec (.hash P) s = .next t →
    byteOf (finalLane t.pend t.len) 7 = BitVec.ofNat 8 P.length ∧
    ∀ (Q : List Byte) (u : State), Q.length % 256 = P.length % 256 → exec (.hash Q) s = .next u →
      byteOf (finalLane u.pend u.len) 7 = byteOf (finalLane t.pend t.len) 7

/-! ## Absorption -/

/-- 42_absorption.md R121: one block: `m` into `v3`, `c` rounds, `m` into `v0`, with the rule's two examples. -/
def Obligations.AbsorbBlockInjectsAroundTheRounds : Prop :=
  (∀ (v : Lanes) (m : Word) (c : Nat),
    absorbBlock v m c =
      ⟨(rounds ⟨v.v0, v.v1, v.v2, v.v3 ^^^ m⟩ c).v0 ^^^ m, (rounds ⟨v.v0, v.v1, v.v2, v.v3 ^^^ m⟩ c).v1,
       (rounds ⟨v.v0, v.v1, v.v2, v.v3 ^^^ m⟩ c).v2, (rounds ⟨v.v0, v.v1, v.v2, v.v3 ^^^ m⟩ c).v3⟩) ∧
  absorbBlock ⟨0x7469686173716475, 0x6b617f6d656e6665, 0x6b7f62616d677361, 0x7b6b696e727e6c7b⟩ 0x0706050403020100 2
    = ⟨0x4a017198de0a59e0, 0x0d52f6f62a4f59a4, 0x634cb3577b01fd3d, 0xa5224d6f55c7d9c8⟩ ∧
  absorbBlock ⟨0x7469686173716475, 0x6b617f6d656e6665, 0x6b7f62616d677361, 0x7b6b696e727e6c7b⟩ 0x0706050403020100 1
    = ⟨0x63608f969061857f, 0x4ed232083d9aa8dc, 0xf2f74892d8141a2e, 0x9290f9810552f4a8⟩

/-- 42_absorption.md R124: `PushByte`: the byte becomes byte number `FILL` of `PEND` without disturbing the others, `LEN`
advances modulo 256, and the eighth byte absorbs the block, which is `LE64` of the eight bytes in arrival order. -/
def Obligations.PushByteBuffersOrAbsorbs : Prop :=
  (∀ (s : State) (b : Byte), s.fill.toNat < 7 →
    pushByte s b = { s with
      pend := s.pend ||| (b.setWidth 64 <<< (8 * s.fill.toNat)), fill := s.fill + 1,
      len := BitVec.ofNat 8 ((s.len.toNat + 1) % 256) }) ∧
  (∀ (s : State) (b : Byte), s.fill.toNat = 7 →
    pushByte s b = { s with
      v := absorbBlock s.v (s.pend ||| (b.setWidth 64 <<< 56)) s.rcC.toNat, pend := 0, fill := 0,
      len := BitVec.ofNat 8 ((s.len.toNat + 1) % 256) }) ∧
  (∀ (s : State) (b : Byte), s.fill.toNat < 7 → s.pend.toNat < 2 ^ (8 * s.fill.toNat) →
    byteOf (pushByte s b).pend s.fill.toNat = b ∧
    ∀ j, j ≤ 7 → j ≠ s.fill.toNat → byteOf (pushByte s b).pend j = byteOf s.pend j) ∧
  (∀ (s : State) (bs : List Byte), bs.length = 8 → s.pend = 0 → s.fill = 0 →
    pushBytes s bs = { s with
      v := absorbBlock s.v (le bs) s.rcC.toNat, len := BitVec.ofNat 8 ((s.len.toNat + 8) % 256) })

/-- 42_absorption.md R125: UPDATE whole: encoding, precondition, the loop, what it leaves (with `t = FILL_before + n`: `t div
8` blocks absorbed, `FILL`, `LEN`, and the last `t mod 8` bytes of buffered bytes followed by payload in `PEND`), the empty
payload, the lanes untouched when no block completes, and the rule's example. `PEND` is clean in every reachable state
(R34(b)); the hypothesis rules out the others. -/
def Obligations.UpdateAbsorbsThePayload : Prop :=
  (∀ P, encode (.update P) = 0x04 :: P ∧ decode (0x04 :: P) = .cmd (.update P)) ∧
  (∀ P s, s.ph ≠ .absorb → exec (.update P) s = .next { s with err := .ePhase }) ∧
  (∀ P s, s.ph = .absorb → exec (.update P) s = .next (P.foldl pushByte s).accept) ∧
  (∀ P s, s.ph = .absorb → s.pend.toNat < 2 ^ (8 * s.fill.toNat) →
    exec (.update P) s = .next { s with
      v := batchAbsorb s.v (bufferedBytes s.pend s.fill ++ P) s.rcC.toNat
      pend := tail (bufferedBytes s.pend s.fill ++ P)
      fill := BitVec.ofNat 3 ((s.fill.toNat + P.length) % 8)
      len := BitVec.ofNat 8 ((s.len.toNat + P.length) % 256)
      err := .ok } ∧
    (bufferedBytes s.pend s.fill ++ P).length = s.fill.toNat + P.length) ∧
  (∀ s, s.ph = .absorb → exec (.update []) s = .next { s with err := .ok }) ∧
  (∀ P s t, s.ph = .absorb → s.fill.toNat + P.length < 8 → exec (.update P) s = .next t → t.v = s.v) ∧
  (∀ s, s.ph = .absorb → s.pend = 0 → s.fill = 0 → s.len = 0 → s.rcC = 2 →
    s.v = ⟨0x7469686173716475, 0x6b617f6d656e6665, 0x6b7f62616d677361, 0x7b6b696e727e6c7b⟩ →
    answerFrame [0x04, 0x00, 0x01, 0x02] s
      = .next { s with pend := 0x0000000000020100, fill := 3, len := 0x03, err := .ok } ∧
    runFrames [[0x04, 0x00, 0x01, 0x02], [0x04, 0x03, 0x04, 0x05, 0x06, 0x07, 0x08, 0x09, 0x0a]] s
      = .next { s with
          v := ⟨0x4a017198de0a59e0, 0x0d52f6f62a4f59a4, 0x634cb3577b01fd3d, 0xa5224d6f55c7d9c8⟩
          pend := 0x00000000000a0908, fill := 3, len := 0x0b, err := .ok })

/-- 42_absorption.md, which the spec (R126) marks as derived from R125: two UPDATE frames are one UPDATE frame of their
payloads joined, and so for any way of cutting a message into one or more frames. -/
def Obligations.ChunkingDoesNotMatter : Prop :=
  (∀ A B s, s.ph = .absorb → ∃ t, andThen (exec (.update A) s) (exec (.update B)) = .next t ∧
    exec (.update (A ++ B)) s = .next t ∧ t.err = .ok) ∧
  (∀ (chunks : List (List Byte)) (s : State), s.ph = .absorb → chunks ≠ [] → ∃ t,
    runFrames (chunks.map fun P => encode (.update P)) s = .next t ∧
    answerFrame (encode (.update chunks.flatten)) s = .next t ∧ t.err = .ok)

/-- 42_absorption.md, which the spec (R129) marks as derived from R124, R127, R128: the two paths are bit-identical: from the
state INIT leaves, `PushByte` over a payload gives the lanes of `BatchAbsorb`, the tail in `PEND`, and the length modulo 8 and
256. -/
def Obligations.IncrementalPathEqualsBatchPath : Prop :=
  ∀ (s : State) (P : List Byte), s.ph = .absorb → s.fill = 0 → s.pend = 0 → s.len = 0 →
    pushBytes s P = { s with
      v := batchAbsorb s.v P s.rcC.toNat
      pend := tail P
      fill := BitVec.ofNat 3 (P.length % 8)
      len := BitVec.ofNat 8 (P.length % 256) }

/-! ## Finalization and the whole hash -/

/-- 43_finalization.md R138: FINISH whole: encoding, precondition, the steps of finalization, registers written, rejections,
the second FINISH, FINISH right after INIT, the fully padded block, the example. -/
def Obligations.FinishProducesTheDigest : Prop :=
  encode .finish = [0x05] ∧ decode [0x05] = .cmd .finish ∧
  (∀ rest, (0x05 :: rest).length ≠ 1 → decode (0x05 :: rest) = .reject .eFrame) ∧
  (∀ s, s.ph ≠ .absorb → exec .finish s = .next { s with err := .ePhase }) ∧
  (∀ (s : State) (w : Lanes), s.ph = .absorb →
    w = rounds (xorV2 0x00000000000000ff (absorbBlock s.v (finalLane s.pend s.len) s.rcC.toNat)) s.rcD.toNat →
    exec .finish s = .next { s with v := w, out := w.v0 ^^^ w.v1 ^^^ w.v2 ^^^ w.v3, ph := .done, err := .ok }) ∧
  (∀ s t, s.ph = .absorb → exec .finish s = .next t → exec .finish t = .next { t with err := .ePhase }) ∧
  (∀ s t, s.kv = true → exec .init s = .next t → exec .finish t = exec (.hash []) s) ∧
  (∀ s, StateInv s → s.fill = 0 → finalLane s.pend s.len = s.len.setWidth 64 <<< 56) ∧
  (∀ s, s.ph = .absorb → s.pend = 0x000e0d0c0b0a0908 → s.len = 0x0f → s.rcC = 2 → s.rcD = 4 →
    s.v = ⟨0x4a017198de0a59e0, 0x0d52f6f62a4f59a4, 0x634cb3577b01fd3d, 0xa5224d6f55c7d9c8⟩ →
    exec .finish s = .next { s with
      v := ⟨0xf6bcd53893fecff1, 0x54b9964c7ea0d937, 0x1b38329c099bb55a, 0x1814bb89ad7be679⟩
      out := 0xa129ca6149be45e5, ph := .done, err := .ok })

/-- 43_finalization.md R140: HASH whole: encoding, precondition, the pseudocode, registers written, what it does not read, the
examples. -/
def Obligations.HashComputesTheDigest : Prop :=
  (∀ P, encode (.hash P) = 0x06 :: P ∧ decode (0x06 :: P) = .cmd (.hash P)) ∧
  (∀ P s, s.kv = false → exec (.hash P) s = .next { s with err := .eNokey }) ∧
  (∀ (P : List Byte) (s : State) (w : Lanes), s.kv = true →
    w = (finalize (batchAbsorb (initLanes s.k) P s.rcC.toNat) (finalLane (tail P) (BitVec.ofNat 8 (P.length % 256)))
      s.rcC.toNat s.rcD.toNat).1 →
    exec (.hash P) s = .next { s with
      v := w, pend := tail P, fill := BitVec.ofNat 3 (P.length % 8), len := BitVec.ofNat 8 (P.length % 256),
      out := w.v0 ^^^ w.v1 ^^^ w.v2 ^^^ w.v3, ph := .done, err := .ok }) ∧
  (∀ P s u t, s.kv = true → u.kv = true → s.k = u.k → s.rcC = u.rcC → s.rcD = u.rcD → exec (.hash P) s = .next t →
    exec (.hash P) u = .next { t with port := u.port }) ∧
  (∀ s, s.kv = true → s.k = ⟨0x0706050403020100, 0x0f0e0d0c0b0a0908⟩ → s.rcC = 2 → s.rcD = 4 →
    (∃ t, answerFrame [0x06] s = .next t ∧ t.out = 0x726fdb47dd0e0e31) ∧
    (∃ t, answerFrame [0x06, 0x00] s = .next t ∧ t.out = 0x74f839c593dc67fd) ∧
    (∃ t, answerFrame [0x06, 0x00, 0x01, 0x02, 0x03, 0x04, 0x05, 0x06, 0x07, 0x08, 0x09, 0x0a, 0x0b, 0x0c, 0x0d, 0x0e] s
        = .next t ∧ t.out = 0xa129ca6149be45e5 ∧ t.pend = 0x000e0d0c0b0a0908 ∧ t.fill = 7 ∧ t.len = 0x0f))

/-- 43_finalization.md, which the spec (R141) marks as derived from R98, R125, R129, R138, R140: HASH equals INIT, UPDATE,
FINISH, register for register, and after INIT any chunking of the message, FINISH. -/
def Obligations.HashEqualsTheStreamingSequence : Prop :=
  ∀ (s : State) (P : List Byte), s.kv = true → ∃ t,
    runFrames [encode (.hash P)] s = .next t ∧
    runFrames [encode .init, encode (.update P), encode .finish] s = .next t ∧
    ∀ chunks : List (List Byte), chunks.flatten = P →
      runFrames (encode .init :: chunks.map (fun Q => encode (.update Q)) ++ [encode .finish]) s = .next t

/-- 20_memory.md R51: the message of a session is the payloads of its accepted UPDATE frames in arrival order, and rejected
frames contribute nothing: whatever frames that keep the session open come between INIT and FINISH, the end state is that of
one HASH of the message. Message byte `t` is byte `t mod 8` of block `t div 8`. That the end state is HASH's is
43_finalization.md R141, which the spec marks as derived. -/
def Obligations.SessionHashesItsMessage : Prop :=
  (∀ (s : State) (Fs : List Frame), s.kv = true → (∀ F ∈ Fs, keepsSession F = true) → ∃ t,
    runFrames (encode .init :: Fs ++ [encode .finish]) s = .next t ∧
    runFrames [encode (.hash (sessionMessage Fs))] s = .next t) ∧
  (∀ (M : List Byte) (t : Nat), t < 8 * (M.length / 8) →
    byteOf (memRead M (8 * (t / 8)) 8) (t % 8) = M.getD t 0)

/-- 44_drivers.md, which the spec (R154) marks as derived from R126, R141: the Batch Hasher, the Keyed Container (after any
earlier calls) and the Streaming Digest (in any chunking) end in the same state, every frame answered OK. -/
def Obligations.DriversAgree : Prop :=
  ∀ (counts : Option (Byte × Byte)) (key data : List Byte) (earlier chunks : List (List Byte)) (s : State),
    key.length = 16 → chunks.flatten = data →
    (∀ c d, counts = some (c, d) → c ≠ 0 ∧ d ≠ 0 ∧ s.ph ≠ .absorb) → ∃ t,
      runFrames (batchHasher counts key data) s = .next t ∧
      runFrames (keyedContainer counts key earlier data) s = .next t ∧
      runFrames (streamingDigest counts key chunks) s = .next t ∧
      t.ph = .done ∧ (∀ c d, counts = some (c, d) → t.rcC = c ∧ t.rcD = d) ∧
      allAccepted (batchHasher counts key data) s ∧ allAccepted (keyedContainer counts key earlier data) s ∧
      allAccepted (streamingDigest counts key chunks) s

/-! ## Rejections -/

/-- 60_exceptions.md R163: a rejected frame writes `ERR` and nothing else. -/
def Obligations.RejectionChangesOnlyErr : Prop :=
  (∀ (F : Frame) (s t : State), answerFrame F s = .next t → t.err ≠ .ok → t = { s with err := t.err }) ∧
  (∀ (i : Instr) (s t : State), exec i s = .next t → t.err ≠ .ok → t = { s with err := t.err })

/-- 60_exceptions.md R164: after a rejected frame the next is executed as if the rejected one had never been sent. -/
def Obligations.RejectionIsNotSticky : Prop :=
  ∀ (G : Frame) (Fs : List Frame) (s t : State), answerFrame G s = .next t → t.err ≠ .ok → Fs ≠ [] →
    runFrames (G :: Fs) s = runFrames Fs s

/-- 10_state.md R30: the seven codes and their numbers; every frame overwrites `ERR`, accepted frames with OK; no command
reads it. -/
def Obligations.ErrHoldsTheLastResponse : Prop :=
  (codeByte .ok = 0x00 ∧ codeByte .eFrame = 0x01 ∧ codeByte .eIllegal = 0x02 ∧ codeByte .eKeylen = 0x03 ∧
    codeByte .eRounds = 0x04 ∧ codeByte .eNokey = 0x05 ∧ codeByte .ePhase = 0x06) ∧
  (∀ (F : Frame) (s : State) (e : Code), answerFrame F { s with err := e } = answerFrame F s) ∧
  (∀ (F : Frame) (s : State) (i : Instr), decode F = .cmd i → allowedIn i s →
    (∀ c d, i = .cfg c d → c ≠ 0 ∧ d ≠ 0) → ∃ t, answerFrame F s = .next t ∧ t.err = .ok)

/-- 60_exceptions.md R171: a frame is answered with the first failing test of the fixed order. -/
def Obligations.FirstFailingTestAnswers : Prop :=
  ∀ (F : Frame) (s : State), ∃ t, answerFrame F s = .next t ∧ t.err = responseTo F s.kv s.ph

/-- 60_exceptions.md, the table the spec (R162) marks as derived from the command rules: the responses each command can end
with are exactly those of the table; E_ILLEGAL belongs to the reserved opcodes, and the empty frame gives E_FRAME. -/
def Obligations.CommandsEndWithTheirCodes : Prop :=
  (∀ (op : Byte) (e : Code), e ∈ commandResponses op ↔
    ∃ (rest : List Byte) (s t : State), answerFrame (op :: rest) s = .next t ∧ t.err = e) ∧
  (∀ op : Byte, Code.eIllegal ∈ commandResponses op ↔ reservedOpcode op = true) ∧
  (∀ s : State, answerFrame [] s = .next { s with err := .eFrame })

/-- 60_exceptions.md R161: no data value causes a rejection: the response depends only on the opcode, the frame length, the
two counts of a CFG frame, `KV` and `PH`. -/
def Obligations.DataCausesNoRejection : Prop :=
  ∀ (F G : Frame) (s u : State), F.head? = G.head? → F.length = G.length → (F.head? = some 0x01 → F = G) →
    s.kv = u.kv → s.ph = u.ph → ∃ t w, answerFrame F s = .next t ∧ answerFrame G u = .next w ∧ t.err = w.err

/-- 60_exceptions.md R169: E_NOKEY is the answer to INIT and HASH while `KV = 0`, which is before the first accepted KEY since
reset: reset clears `KV`, only KEY sets it, and only reset clears it. -/
def Obligations.NoKeyUntilTheFirstKey : Prop :=
  (∀ (F : Frame) (s t : State), answerFrame F s = .next t →
    (t.err = .eNokey ↔ (decode F = .cmd .init ∨ ∃ P, decode F = .cmd (.hash P)) ∧ s.kv = false)) ∧
  State.reset.kv = false ∧
  (∀ (F : Frame) (s t : State), answerFrame F s = .next t → s.kv = false → t.kv = true →
    ∃ P, decode F = .cmd (.key P) ∧ t.err = .ok) ∧
  (∀ (s t : State), step s = .next t → s.kv = true → t.kv = false → ∃ rest, s.port = .reset :: rest)

/-! ## Registers over all commands -/

/-- 10_state.md R22: the key lanes are written by an accepted KEY only, both at once, and by reset. -/
def Obligations.KeyLanesAreWrittenByKeyOnly : Prop :=
  ∀ (s t : State), step s = .next t → t.k ≠ s.k →
    (∃ rest, s.port = .reset :: rest) ∨
    (∃ F rest P, s.port = .frame F :: rest ∧ decode F = .cmd (.key P) ∧ P.length = 16 ∧ t.k = keyDerive P ∧ t.err = .ok)

/-- 70_reset_and_hazards.md R190: `OUT` is overwritten by an accepted FINISH or HASH, and then shows the fold of the new lanes
in `DONE`; no other frame changes it. -/
def Obligations.OutIsWrittenByDigestsOnly : Prop :=
  (∀ (F : Frame) (s t : State), answerFrame F s = .next t → t.out ≠ s.out →
    t.err = .ok ∧ (decode F = .cmd .finish ∨ ∃ P, decode F = .cmd (.hash P))) ∧
  (∀ (F : Frame) (s t : State), answerFrame F s = .next t → t.err = .ok →
    (decode F = .cmd .finish ∨ ∃ P, decode F = .cmd (.hash P)) →
    t.ph = .done ∧ t.out = t.v.v0 ^^^ t.v.v1 ^^^ t.v.v2 ^^^ t.v.v3)

/-- 10_state.md, the writes of the access matrix, which the spec (R24) marks as derived from the command rules: what each
command leaves unchanged whenever it answers, accepted or not. -/
def Obligations.CommandsWriteOnlyTheirRegisters : Prop :=
  (∀ c d s t, exec (.cfg c d) s = .next t → t = { s with rcC := t.rcC, rcD := t.rcD, err := t.err }) ∧
  (∀ P s t, exec (.key P) s = .next t → t = { s with k := t.k, kv := t.kv, ph := t.ph, err := t.err } ∧
    (s.kv = true → t.kv = true)) ∧
  (∀ s t, exec .init s = .next t →
    t = { s with v := t.v, pend := t.pend, fill := t.fill, len := t.len, ph := t.ph, err := t.err }) ∧
  (∀ P s t, exec (.update P) s = .next t →
    t = { s with v := t.v, pend := t.pend, fill := t.fill, len := t.len, err := t.err } ∧
    (s.fill.toNat + P.length < 8 → t.v = s.v)) ∧
  (∀ s t, exec .finish s = .next t → t = { s with v := t.v, out := t.out, ph := t.ph, err := t.err }) ∧
  (∀ P s t, exec (.hash P) s = .next t →
    t = { s with v := t.v, pend := t.pend, fill := t.fill, len := t.len, out := t.out, ph := t.ph, err := t.err })

/-- 10_state.md R26: the phase register's values and its transitions: an accepted command was allowed and leaves the table's
phase, a rejected one leaves the phase unchanged, an allowed one is accepted (CFG with two legal counts, KEY with a Secret of
16 bytes), and the value 3 is no phase. -/
def Obligations.PhaseFollowsItsTable : Prop :=
  (phaseBits .idle = 0 ∧ phaseBits .absorb = 1 ∧ phaseBits .done = 2 ∧ ∀ p, phaseBits p ≠ 3) ∧
  (∀ (i : Instr) (s t : State), exec i s = .next t → t.err = .ok → allowedIn i s ∧ t.ph = phaseAfter i s.ph) ∧
  (∀ (i : Instr) (s t : State), exec i s = .next t → t.err ≠ .ok → t.ph = s.ph) ∧
  (∀ (i : Instr) (s : State), allowedIn i s → WellFormed i → (∀ c d, i = .cfg c d → c ≠ 0 ∧ d ≠ 0) →
    ∃ t, exec i s = .next t ∧ t.err = .ok) ∧
  (∀ (F : Frame) (s t : State), answerFrame F s = .next t → t.err ≠ .ok → t.ph = s.ph)

/-- 10_state.md R29: the status port, field by field. -/
def Obligations.StatusPortShowsFiveFields : Prop :=
  ∀ s : State,
    (statusPort s).extractLsb' 0 2 = phaseBits s.ph ∧ (statusPort s).getLsbD 2 = s.kv ∧
    (statusPort s).extractLsb' 3 5 = 0 ∧ (statusPort s).extractLsb' 8 8 = codeByte s.err ∧
    (statusPort s).extractLsb' 16 8 = s.rcC ∧ (statusPort s).extractLsb' 24 8 = s.rcD ∧
    hostPorts s = ⟨s.out, statusPort s⟩

/-- 43_finalization.md R140(b), 40_config_key_init.md R98(c), 44_drivers.md R155(a): INIT and HASH do not read the working
registers: two machines with the same key and counts, whatever session each has open, agree on everything these commands
write. -/
def Obligations.FreshStartIgnoresTheOldSession : Prop :=
  (∀ (s u t : State), s.kv = true → u.kv = true → s.k = u.k → exec .init s = .next t →
    exec .init u = .next { u with v := t.v, pend := t.pend, fill := t.fill, len := t.len, ph := t.ph, err := t.err }) ∧
  (∀ (P : List Byte) (s u t w : State), s.kv = true → u.kv = true → s.k = u.k → s.rcC = u.rcC → s.rcD = u.rcD →
    exec (.hash P) s = .next t → exec (.hash P) u = .next w →
    hostPorts w = hostPorts t ∧ ∀ i x y, exec i t = .next x → exec i w = .next y → hostPorts y = hostPorts x)

/-! ## Invariants -/

/-- 10_state.md R37, and the invariants the spec (R34) marks as derived: the reset state meets the invariants, and the output
port's. -/
def Obligations.ResetMeetsTheInvariants : Prop := StateInv State.reset ∧ OutputCurrent State.reset

/-- 10_state.md, the invariants the spec (R34) marks as derived: every step keeps the invariants, from every state that meets
them. -/
def Obligations.EveryStepKeepsTheInvariants : Prop :=
  ∀ s t : State, StateInv s → step s = .next t → StateInv t

/-- 10_state.md, which the spec (R34) marks as derived from the reset and command rules: the invariants hold in every
reachable state. -/
def Obligations.ReachableStatesMeetTheInvariants : Prop := ∀ s : State, Reachable s → StateInv s

/-- 43_finalization.md R138, R140; 95_test_vectors.md section 12: every step keeps `OUT = v0 ^ v1 ^ v2 ^ v3` in `DONE`. -/
def Obligations.EveryStepKeepsTheOutputCurrent : Prop :=
  ∀ s t : State, OutputCurrent s → step s = .next t → OutputCurrent t

/-! ## The sequence of lane operations -/

/-- 10_state.md R23: the lanes a command leaves are those its sequence of lane operations makes. The sequence is the model's
construction (log 11). -/
def Obligations.LanesFollowTheirOperations : Prop :=
  ∀ (i : Instr) (s t : State), exec i s = .next t → t.v = (laneOps i s).foldl applyLaneOp s.v

/-- 70_reset_and_hazards.md, which the spec (R194) marks as derived from R125, R137, R140: the number of rounds of each
accepted command. The sequence counted in is the model's construction (log 11). -/
def Obligations.RoundCountsOfTheCommands : Prop :=
  (∀ c d s, roundCount (.cfg c d) s = 0) ∧ (∀ P s, roundCount (.key P) s = 0) ∧ (∀ s, roundCount .init s = 0) ∧
  (∀ (P : List Byte) (s : State), s.ph = .absorb →
    roundCount (.update P) s = s.rcC.toNat * ((s.fill.toNat + P.length) / 8)) ∧
  (∀ s : State, s.ph = .absorb → roundCount .finish s = s.rcC.toNat + s.rcD.toNat) ∧
  (∀ (P : List Byte) (s : State), s.kv = true →
    roundCount (.hash P) s = s.rcC.toNat * (P.length / 8 + 1) + s.rcD.toNat) ∧
  (∀ (P : List Byte) (s : State), s.kv = true → s.rcC = 2 → s.rcD = 4 →
    roundCount (.hash P) s = 2 * (P.length / 8) + 6)

/-- 70_reset_and_hazards.md R193, 41_round.md R117: data independence: which lane operations a command performs depends only
on the opcode, the frame length, `RC_C`, `RC_D`, `FILL`, `PH` and `KV`, never on a key byte, a message byte, a lane or `PEND`.
The sequence is the model's construction (log 11). -/
def Obligations.LaneOperationsDoNotDependOnData : Prop :=
  ∀ (i j : Instr) (s u : State),
    opcodeOf i = opcodeOf j → (encode i).length = (encode j).length →
    s.rcC = u.rcC → s.rcD = u.rcD → s.fill = u.fill → s.ph = u.ph → s.kv = u.kv →
    (laneOps i s).map laneOpKind = (laneOps j u).map laneOpKind
end

