-- ==== Sys2Proof/Laws/Operands.lean ====
section
/-!
SUPPORT. Little-endian assembly, byte extraction and payload reads: one lemma per fact later proofs cite.
-/

namespace Sys2Proof.Machine

open Sys2Proof

@[simp] theorem leValue_nil : leValue [] = 0 := rfl

@[simp] theorem leValue_cons (b : Byte) (bs : List Byte) : leValue (b :: bs) = b.toNat + 2 ^ 8 * leValue bs := rfl

theorem leValue_lt (bs : List Byte) : leValue bs < 2 ^ (8 * bs.length) := by
  induction bs with
  | nil => simp
  | cons b bs ih =>
    have hb := b.isLt
    have hp : 2 ^ (8 * (b :: bs).length) = 2 ^ 8 * 2 ^ (8 * bs.length) := by
      rw [← pow_add, List.length_cons]
      congr 1
      omega
    rw [hp, leValue_cons]
    omega

theorem leValue_append (xs ys : List Byte) :
    leValue (xs ++ ys) = leValue xs + 2 ^ (8 * xs.length) * leValue ys := by
  induction xs with
  | nil => simp
  | cons b bs ih =>
    have hp : 2 ^ (8 * (b :: bs).length) = 2 ^ 8 * 2 ^ (8 * bs.length) := by
      rw [← pow_add, List.length_cons]
      congr 1
      omega
    simp only [List.cons_append, leValue_cons, ih, hp]
    ring

@[simp] theorem le_nil : le [] = 0 := rfl

theorem le_toNat {bs : List Byte} (h : bs.length ≤ 8) : (le bs).toNat = leValue bs := by
  have := leValue_lt bs
  have hp : 2 ^ (8 * bs.length) ≤ 2 ^ 64 := Nat.pow_le_pow_right (by omega) (by omega)
  simp only [le, BitVec.toNat_ofNat]
  exact Nat.mod_eq_of_lt (by omega)

theorem byteOf_toNat (w : Word) (j : Nat) : (byteOf w j).toNat = w.toNat / 2 ^ (8 * j) % 2 ^ 8 := by
  simp [byteOf, BitVec.extractLsb'_toNat, Nat.shiftRight_eq_div_pow]

/-- Byte `j` of an assembled word is byte `j` of the sequence, and zero past its end. -/
theorem byteOf_le {bs : List Byte} (h : bs.length ≤ 8) (j : Nat) : byteOf (le bs) j = bs.getD j 0 := by
  apply BitVec.eq_of_toNat_eq
  rw [byteOf_toNat, le_toNat h]
  clear h
  induction bs generalizing j with
  | nil => simp
  | cons b bs ih =>
    have hb := b.isLt
    cases j with
    | zero => simp only [leValue_cons, List.getD_cons_zero, Nat.mul_zero, pow_zero, Nat.div_one]; omega
    | succ j =>
      have hp : 2 ^ (8 * (j + 1)) = 2 ^ 8 * 2 ^ (8 * j) := by rw [← pow_add]; congr 1; omega
      have hd : (b.toNat + 2 ^ 8 * leValue bs) / 2 ^ 8 = leValue bs := by omega
      rw [leValue_cons, hp, ← Nat.div_div_eq_div_mul, hd, ih, List.getD_cons_succ]

/-- One more byte, placed above the bytes assembled so far, which is how `PushByte` buffers it. -/
theorem le_concat {bs : List Byte} (h : bs.length < 8) (b : Byte) :
    le (bs ++ [b]) = le bs ||| (zext64 b <<< (8 * bs.length)) := by
  have hlt := leValue_lt bs
  have hb := b.isLt
  have hx : (zext64 b <<< (8 * bs.length)).toNat = 2 ^ (8 * bs.length) * b.toNat := by
    have hle : b.toNat * 2 ^ (8 * bs.length) < 2 ^ 64 := by
      calc b.toNat * 2 ^ (8 * bs.length) < 2 ^ 8 * 2 ^ (8 * bs.length) :=
            Nat.mul_lt_mul_of_pos_right hb (Nat.two_pow_pos _)
        _ = 2 ^ (8 * bs.length + 8) := by rw [← pow_add, Nat.add_comm]
        _ ≤ 2 ^ 64 := Nat.pow_le_pow_right (by omega) (by omega)
    rw [BitVec.toNat_shiftLeft, Nat.shiftLeft_eq, BitVec.toNat_setWidth, Nat.mod_eq_of_lt (a := b.toNat) (by omega),
      Nat.mod_eq_of_lt hle, Nat.mul_comm]
  apply BitVec.eq_of_toNat_eq
  rw [le_toNat (by simp; omega), BitVec.toNat_or, le_toNat (by omega), hx, leValue_append, Nat.lor_comm,
    ← Nat.two_pow_add_eq_or_of_lt hlt]
  simp [Nat.add_comm]

@[simp] theorem bufferedBytes_length (pend : Word) (fill : BitVec 3) :
    (bufferedBytes pend fill).length = fill.toNat := by simp [bufferedBytes]

/-- The low `n` bytes of a word, assembled again. -/
theorem leValue_bytes (w : Word) (n : Nat) : leValue ((List.range n).map (byteOf w)) = w.toNat % 2 ^ (8 * n) := by
  induction n with
  | zero => simp [Nat.mod_one]
  | succ n ih =>
    have hp : 2 ^ (8 * (n + 1)) = 2 ^ (8 * n) * 2 ^ 8 := by rw [← pow_add]; congr 1
    rw [List.range_succ, List.map_append, leValue_append, ih, hp, Nat.mod_mul]
    simp [byteOf_toNat]

/-- A word is the assembly of its eight bytes. -/
theorem le_bytes (w : Word) : le ((List.range 8).map (byteOf w)) = w := by
  apply BitVec.eq_of_toNat_eq
  rw [le_toNat (by simp), leValue_bytes, Nat.mod_eq_of_lt w.isLt]

/-- A clean pending lane is the assembly of the bytes it buffers. -/
theorem le_bufferedBytes {pend : Word} {fill : BitVec 3} (h : pend.toNat < 2 ^ (8 * fill.toNat)) :
    le (bufferedBytes pend fill) = pend := by
  have hf := fill.isLt
  apply BitVec.eq_of_toNat_eq
  rw [le_toNat (by simp; omega), bufferedBytes, leValue_bytes, Nat.mod_eq_of_lt h]

theorem memRead_length_le (P : List Byte) (i m : Nat) : ((P.drop i).take m).length ≤ m := by simp

/-- Reading past a prefix is reading what follows it. -/
theorem memRead_append (A P : List Byte) (i m : Nat) : memRead (A ++ P) (A.length + i) m = memRead P i m := by
  rw [memRead, List.drop_append, List.drop_of_length_le (by omega), List.nil_append, Nat.add_sub_cancel_left, memRead]

theorem tail_short {P : List Byte} (h : P.length < 8) : tail P = le P := by
  have h0 : P.length / 8 = 0 := by omega
  simp only [tail, memRead, h0, Nat.mul_zero, List.drop_zero]
  rw [List.take_of_length_le (by omega)]

/-- A complete block in front does not change the tail. -/
theorem tail_block {B : List Byte} (h : B.length = 8) (P : List Byte) : tail (B ++ P) = tail P := by
  have h1 : (B ++ P).length / 8 = P.length / 8 + 1 := by
    rw [List.length_append, h]
    omega
  have h2 : (B ++ P).length % 8 = P.length % 8 := by simp [h]
  have h3 : 8 * (P.length / 8 + 1) = B.length + 8 * (P.length / 8) := by omega
  rw [tail, h1, h2, h3, memRead_append, tail]

end Sys2Proof.Machine
end

