-- ==== Sys2Proof/Laws/Round.lean ====
section
/-!
SUPPORT. Rotation and repeated rounds.
-/

namespace Sys2Proof.Machine

open Sys2Proof

/-- The spec's rotation is the library's. -/
theorem rotl_eq_rotateLeft (x : Word) {n : Nat} (h : n < 64) : rotl x n = x.rotateLeft n := by
  rw [BitVec.rotateLeft_eq_rotateLeftAux_of_lt h]
  rfl

@[simp] theorem rounds_zero (v : Lanes) : rounds v 0 = v := rfl

@[simp] theorem rounds_succ (v : Lanes) (n : Nat) : rounds v (n + 1) = sipRound (rounds v n) := rfl

end Sys2Proof.Machine
end

