-- ==== Sys2Proof/Laws/State.lean ====
section
/-!
SUPPORT. One lemma per field for each operation that only rewrites fields of State, so that later proofs do not unfold a
record update.
-/

namespace Sys2Proof.Machine

@[simp] theorem State.accept_k (s : State) : s.accept.k = s.k := rfl
@[simp] theorem State.accept_v (s : State) : s.accept.v = s.v := rfl
@[simp] theorem State.accept_pend (s : State) : s.accept.pend = s.pend := rfl
@[simp] theorem State.accept_fill (s : State) : s.accept.fill = s.fill := rfl
@[simp] theorem State.accept_len (s : State) : s.accept.len = s.len := rfl
@[simp] theorem State.accept_rcC (s : State) : s.accept.rcC = s.rcC := rfl
@[simp] theorem State.accept_rcD (s : State) : s.accept.rcD = s.rcD := rfl
@[simp] theorem State.accept_kv (s : State) : s.accept.kv = s.kv := rfl
@[simp] theorem State.accept_ph (s : State) : s.accept.ph = s.ph := rfl
@[simp] theorem State.accept_out (s : State) : s.accept.out = s.out := rfl
@[simp] theorem State.accept_err (s : State) : s.accept.err = .ok := rfl
@[simp] theorem State.accept_port (s : State) : s.accept.port = s.port := rfl

@[simp] theorem State.reject_k (s : State) (e : Code) : (s.reject e).k = s.k := rfl
@[simp] theorem State.reject_v (s : State) (e : Code) : (s.reject e).v = s.v := rfl
@[simp] theorem State.reject_pend (s : State) (e : Code) : (s.reject e).pend = s.pend := rfl
@[simp] theorem State.reject_fill (s : State) (e : Code) : (s.reject e).fill = s.fill := rfl
@[simp] theorem State.reject_len (s : State) (e : Code) : (s.reject e).len = s.len := rfl
@[simp] theorem State.reject_rcC (s : State) (e : Code) : (s.reject e).rcC = s.rcC := rfl
@[simp] theorem State.reject_rcD (s : State) (e : Code) : (s.reject e).rcD = s.rcD := rfl
@[simp] theorem State.reject_kv (s : State) (e : Code) : (s.reject e).kv = s.kv := rfl
@[simp] theorem State.reject_ph (s : State) (e : Code) : (s.reject e).ph = s.ph := rfl
@[simp] theorem State.reject_out (s : State) (e : Code) : (s.reject e).out = s.out := rfl
@[simp] theorem State.reject_err (s : State) (e : Code) : (s.reject e).err = e := rfl
@[simp] theorem State.reject_port (s : State) (e : Code) : (s.reject e).port = s.port := rfl

@[simp] theorem State.resetRegisters_k (s : State) : s.resetRegisters.k = State.reset.k := rfl
@[simp] theorem State.resetRegisters_v (s : State) : s.resetRegisters.v = State.reset.v := rfl
@[simp] theorem State.resetRegisters_pend (s : State) : s.resetRegisters.pend = State.reset.pend := rfl
@[simp] theorem State.resetRegisters_fill (s : State) : s.resetRegisters.fill = State.reset.fill := rfl
@[simp] theorem State.resetRegisters_len (s : State) : s.resetRegisters.len = State.reset.len := rfl
@[simp] theorem State.resetRegisters_rcC (s : State) : s.resetRegisters.rcC = State.reset.rcC := rfl
@[simp] theorem State.resetRegisters_rcD (s : State) : s.resetRegisters.rcD = State.reset.rcD := rfl
@[simp] theorem State.resetRegisters_kv (s : State) : s.resetRegisters.kv = State.reset.kv := rfl
@[simp] theorem State.resetRegisters_ph (s : State) : s.resetRegisters.ph = State.reset.ph := rfl
@[simp] theorem State.resetRegisters_out (s : State) : s.resetRegisters.out = State.reset.out := rfl
@[simp] theorem State.resetRegisters_err (s : State) : s.resetRegisters.err = State.reset.err := rfl
@[simp] theorem State.resetRegisters_port (s : State) : s.resetRegisters.port = s.port := rfl

end Sys2Proof.Machine
end

