-- ==== Sys2Proof/Laws/Ops.lean ====
section
/-!
SUPPORT. Block absorption in its two paths, byte by byte and block by block.
-/

namespace Sys2Proof.Machine

open Sys2Proof

/-- `PushByte` while the block stays incomplete. -/
theorem pushByte_of_lt {s : State} (h : s.fill.toNat < 7) (b : Byte) :
    pushByte s b = { s with
      pend := s.pend ||| (zext64 b <<< (8 * s.fill.toNat)), fill := s.fill + 1, len := s.len + 1 } := by
  have h8 : ¬ s.fill.toNat + 1 = 8 := by omega
  simp only [pushByte, if_neg h8]

/-- `PushByte` of the byte that completes a block. -/
theorem pushByte_of_eq {s : State} (h : s.fill.toNat = 7) (b : Byte) :
    pushByte s b = { s with
      v := absorbBlock s.v (s.pend ||| (zext64 b <<< 56)) s.rcC.toNat, pend := 0, fill := 0, len := s.len + 1 } := by
  simp only [pushByte, h, ↓reduceIte]

@[simp] theorem pushBytes_nil (s : State) : pushBytes s [] = s := rfl

@[simp] theorem pushBytes_cons (s : State) (b : Byte) (P : List Byte) :
    pushBytes s (b :: P) = pushBytes (pushByte s b) P := rfl

theorem pushBytes_append (s : State) (A B : List Byte) : pushBytes s (A ++ B) = pushBytes (pushBytes s A) B := by
  simp [pushBytes]

/-- `PushByte` writes the lanes, `PEND`, `FILL` and `LEN`, and nothing else. -/
theorem pushByte_frame (s : State) (b : Byte) : ∃ v pend fill,
    pushByte s b = { s with v := v, pend := pend, fill := fill, len := s.len + 1 } := by
  by_cases h : s.fill.toNat + 1 = 8
  · exact ⟨_, _, _, by simp only [pushByte, if_pos h]; rfl⟩
  · exact ⟨s.v, _, _, by simp only [pushByte, if_neg h]; rfl⟩

/-- The same over a payload; `LEN` counts its bytes modulo 256. -/
theorem pushBytes_frame (P : List Byte) (s : State) : ∃ v pend fill,
    pushBytes s P = { s with v := v, pend := pend, fill := fill, len := s.len + BitVec.ofNat 8 P.length } := by
  induction P generalizing s with
  | nil => exact ⟨s.v, s.pend, s.fill, by simp⟩
  | cons b P ih =>
    obtain ⟨v, pend, fill, h⟩ := pushByte_frame s b
    obtain ⟨v', pend', fill', h'⟩ := ih (pushByte s b)
    refine ⟨v', pend', fill', ?_⟩
    rw [pushBytes_cons, h', h]
    congr 1
    apply BitVec.eq_of_toNat_eq
    simp
    omega

/-- Absorption does not see the port. -/
theorem pushBytes_port (P : List Byte) (s : State) (p : List PortEvent) :
    pushBytes { s with port := p } P = { pushBytes s P with port := p } := by
  induction P generalizing s with
  | nil => rfl
  | cons b P ih =>
    rw [pushBytes_cons, pushBytes_cons, ← ih]
    congr 1
    by_cases h : s.fill.toNat + 1 = 8
    · simp only [pushByte, if_pos h]
    · simp only [pushByte, if_neg h]

/-- Nor `ERR`. -/
theorem pushBytes_err (P : List Byte) (s : State) (e : Code) :
    pushBytes { s with err := e } P = { pushBytes s P with err := e } := by
  induction P generalizing s with
  | nil => rfl
  | cons b P ih =>
    rw [pushBytes_cons, pushBytes_cons, ← ih]
    congr 1
    by_cases h : s.fill.toNat + 1 = 8
    · simp only [pushByte, if_pos h]
    · simp only [pushByte, if_neg h]

/-- A payload without a complete block absorbs nothing. -/
theorem batchAbsorb_short (v : Lanes) {P : List Byte} (h : P.length < 8) (c : Nat) : batchAbsorb v P c = v := by
  have h0 : P.length / 8 = 0 := by omega
  simp [batchAbsorb, h0]

/-- A complete block in front is absorbed first. -/
theorem batchAbsorb_block (v : Lanes) {B : List Byte} (h : B.length = 8) (P : List Byte) (c : Nat) :
    batchAbsorb v (B ++ P) c = batchAbsorb (absorbBlock v (le B) c) P c := by
  have h1 : (B ++ P).length / 8 = P.length / 8 + 1 := by
    rw [List.length_append, h]
    omega
  have h2 : memRead (B ++ P) (8 * 0) 8 = le B := by
    have : (B ++ P).take 8 = B := by rw [← h, List.take_left']; rfl
    simp [memRead, this]
  have h3 : ∀ j, memRead (B ++ P) (8 * (j + 1)) 8 = memRead P (8 * j) 8 := by
    intro j
    have : 8 * (j + 1) = B.length + 8 * j := by omega
    rw [this, memRead_append]
  simp only [batchAbsorb, h1, List.range_succ_eq_map, List.foldl_cons, List.foldl_map, h2, h3]

end Sys2Proof.Machine
end

