-- ==== Sys2Proof/Laws/Exec.lean ====
section
/-!
SUPPORT. What each command can do, said once: the two or three answers of each meaning, and the form that every answer has.
-/

namespace Sys2Proof.Machine

open Sys2Proof

theorem exec_cfg_phase {s : State} (h : s.ph = .absorb) (c d : Byte) : exec (.cfg c d) s = .next (s.reject .ePhase) := by
  simp only [exec, execCfg, h, ↓reduceIte]

theorem exec_cfg_rounds {s : State} (h : s.ph ≠ .absorb) {c d : Byte} (hz : c = 0 ∨ d = 0) :
    exec (.cfg c d) s = .next (s.reject .eRounds) := by
  simp only [exec, execCfg, if_neg h, if_pos hz]

theorem exec_cfg_ok {s : State} (h : s.ph ≠ .absorb) {c d : Byte} (hc : c ≠ 0) (hd : d ≠ 0) :
    exec (.cfg c d) s = .next { s with rcC := c, rcD := d, err := .ok } := by
  simp only [exec, execCfg, if_neg h, hc, hd, or_self, ↓reduceIte, State.accept]

theorem exec_key_ok (s : State) {secret : List Byte} (h : secret.length = 16) :
    exec (.key secret) s = .next { s with k := keyDerive secret, kv := true, ph := .idle, err := .ok } := by
  simp only [exec, execKey, h, ↓reduceIte, State.accept]

theorem exec_key_length (s : State) {secret : List Byte} (h : secret.length ≠ 16) :
    exec (.key secret) s = .next (s.reject .eKeylen) := by
  simp only [exec, execKey, h, ↓reduceIte]

theorem exec_init_ok {s : State} (h : s.kv = true) :
    exec .init s = .next { s with
      v := initLanes s.k, pend := 0, fill := 0, len := 0, ph := .absorb, err := .ok } := by
  simp only [exec, execInit, h, ↓reduceIte, State.accept]

theorem exec_init_nokey {s : State} (h : s.kv = false) : exec .init s = .next (s.reject .eNokey) := by
  simp [exec, execInit, h]

theorem exec_update_ok {s : State} (h : s.ph = .absorb) (P : List Byte) :
    exec (.update P) s = .next (pushBytes s P).accept := by
  simp only [exec, execUpdate, h, ↓reduceIte]

theorem exec_update_phase {s : State} (h : s.ph ≠ .absorb) (P : List Byte) :
    exec (.update P) s = .next (s.reject .ePhase) := by
  simp only [exec, execUpdate, h, ↓reduceIte]

theorem exec_finish_ok {s : State} (h : s.ph = .absorb) :
    exec .finish s = .next { s with
      v := finalizeLanes s.v (finalLane s.pend s.len) s.rcC.toNat s.rcD.toNat,
      out := outputFold (finalizeLanes s.v (finalLane s.pend s.len) s.rcC.toNat s.rcD.toNat),
      ph := .done, err := .ok } := by
  simp only [exec, execFinish, h, ↓reduceIte, State.accept, finalize]

theorem exec_finish_phase {s : State} (h : s.ph ≠ .absorb) : exec .finish s = .next (s.reject .ePhase) := by
  simp only [exec, execFinish, h, ↓reduceIte]

/-- The lanes HASH leaves (43_finalization.md R140). -/
def hashLanes (k : KeyLanes) (P : List Byte) (c d : Nat) : Lanes :=
  finalizeLanes (batchAbsorb (initLanes k) P c) (finalLane (tail P) (BitVec.ofNat 8 (P.length % 256))) c d

theorem exec_hash_ok {s : State} (h : s.kv = true) (P : List Byte) :
    exec (.hash P) s = .next { s with
      v := hashLanes s.k P s.rcC.toNat s.rcD.toNat,
      pend := tail P, fill := BitVec.ofNat 3 (P.length % 8), len := BitVec.ofNat 8 (P.length % 256),
      out := outputFold (hashLanes s.k P s.rcC.toNat s.rcD.toNat), ph := .done, err := .ok } := by
  simp only [exec, execHash, h, ↓reduceIte, State.accept, finalize, hashLanes]

theorem exec_hash_nokey {s : State} (h : s.kv = false) (P : List Byte) :
    exec (.hash P) s = .next (s.reject .eNokey) := by
  simp [exec, execHash, h]

/-- Every answer of a command, as the rejection or the acceptance it is; the inversion lemma later proofs split on. -/
theorem exec_cases (i : Instr) (s : State) :
    (∃ e, e ≠ Code.ok ∧ exec i s = .next (s.reject e)) ∨
    (∃ c d, i = .cfg c d ∧ s.ph ≠ .absorb ∧ c ≠ 0 ∧ d ≠ 0 ∧
      exec i s = .next { s with rcC := c, rcD := d, err := .ok }) ∨
    (∃ secret, i = .key secret ∧ secret.length = 16 ∧
      exec i s = .next { s with k := keyDerive secret, kv := true, ph := .idle, err := .ok }) ∨
    (i = .init ∧ s.kv = true ∧
      exec i s = .next { s with
        v := initLanes s.k, pend := 0, fill := 0, len := 0, ph := .absorb, err := .ok }) ∨
    (∃ P, i = .update P ∧ s.ph = .absorb ∧ exec i s = .next (pushBytes s P).accept) ∨
    (i = .finish ∧ s.ph = .absorb ∧
      exec i s = .next { s with
        v := finalizeLanes s.v (finalLane s.pend s.len) s.rcC.toNat s.rcD.toNat,
        out := outputFold (finalizeLanes s.v (finalLane s.pend s.len) s.rcC.toNat s.rcD.toNat),
        ph := .done, err := .ok }) ∨
    (∃ P, i = .hash P ∧ s.kv = true ∧
      exec i s = .next { s with
        v := hashLanes s.k P s.rcC.toNat s.rcD.toNat,
        pend := tail P, fill := BitVec.ofNat 3 (P.length % 8), len := BitVec.ofNat 8 (P.length % 256),
        out := outputFold (hashLanes s.k P s.rcC.toNat s.rcD.toNat), ph := .done, err := .ok }) := by
  cases i with
  | cfg c d =>
    by_cases h : s.ph = .absorb
    · exact .inl ⟨.ePhase, by decide, exec_cfg_phase h c d⟩
    by_cases hz : c = 0 ∨ d = 0
    · exact .inl ⟨.eRounds, by decide, exec_cfg_rounds h hz⟩
    · push Not at hz
      exact .inr (.inl ⟨c, d, rfl, h, hz.1, hz.2, exec_cfg_ok h hz.1 hz.2⟩)
  | key secret =>
    by_cases h : secret.length = 16
    · exact .inr (.inr (.inl ⟨secret, rfl, h, exec_key_ok s h⟩))
    · exact .inl ⟨.eKeylen, by decide, exec_key_length s h⟩
  | init =>
    by_cases h : s.kv = true
    · exact .inr (.inr (.inr (.inl ⟨rfl, h, exec_init_ok h⟩)))
    · exact .inl ⟨.eNokey, by decide, exec_init_nokey (by simpa using h)⟩
  | update P =>
    by_cases h : s.ph = .absorb
    · exact .inr (.inr (.inr (.inr (.inl ⟨P, rfl, h, exec_update_ok h P⟩))))
    · exact .inl ⟨.ePhase, by decide, exec_update_phase h P⟩
  | finish =>
    by_cases h : s.ph = .absorb
    · exact .inr (.inr (.inr (.inr (.inr (.inl ⟨rfl, h, exec_finish_ok h⟩)))))
    · exact .inl ⟨.ePhase, by decide, exec_finish_phase h⟩
  | hash P =>
    by_cases h : s.kv = true
    · exact .inr (.inr (.inr (.inr (.inr (.inr ⟨P, rfl, h, exec_hash_ok h P⟩)))))
    · exact .inl ⟨.eNokey, by decide, exec_hash_nokey (by simpa using h) P⟩

end Sys2Proof.Machine
end

