-- ==== Sys2Proof/Laws/PerInstr.lean ====
section
/-!
SUPPORT. Statements about every command as syntax, one lemma per constructor.
-/

namespace Sys2Proof.Laws.FrameShape

open Sys2Proof

/-- A command's frame begins with its opcode byte, which is no reserved one, and is at least as long as the opcode map
requires when the command is well formed (30_encoding.md R72, R75, R76). -/
def Statement (i : Instr) : Prop :=
  (encode i).head? = some (opcodeOf i) ∧ 1 ≤ (opcodeOf i).toNat ∧ (opcodeOf i).toNat ≤ 6 ∧
    (WellFormed i → requiredLength (opcodeOf i) ≤ (encode i).length)

theorem cfg (c d : Byte) : Statement (.cfg c d) := by simp [Statement, encode, opcodeOf, operandBytes, requiredLength]

theorem key (secret : List Byte) : Statement (.key secret) := by
  refine ⟨rfl, by simp [opcodeOf], by simp [opcodeOf], fun h => ?_⟩
  have hl : secret.length = 16 := by
    simpa [WellFormed, wellFormedFor, Config.maxPayload, Config.fits] using h
  simp [encode, opcodeOf, operandBytes, requiredLength, hl]

theorem init : Statement .init := by simp [Statement, encode, opcodeOf, operandBytes, requiredLength]

theorem update (payload : List Byte) : Statement (.update payload) := by
  simp [Statement, encode, opcodeOf, operandBytes, requiredLength]

theorem finish : Statement .finish := by simp [Statement, encode, opcodeOf, operandBytes, requiredLength]

theorem hash (payload : List Byte) : Statement (.hash payload) := by
  simp [Statement, encode, opcodeOf, operandBytes, requiredLength]

end Sys2Proof.Laws.FrameShape
end

