-- ==== Sys2Proof/Laws/Step.lean ====
section
/-!
SUPPORT. What answering a frame and taking a step can do, said once.
-/

namespace Sys2Proof.Machine

open Sys2Proof

theorem answerFrame_cmd {F : Frame} {i : Instr} (h : decode F = .cmd i) (s : State) : answerFrame F s = exec i s := by
  have h' : decodeFor Config.maxPayload F = .cmd i := h
  simp only [answerFrame, answerFrameFor, h']

theorem answerFrame_reject {F : Frame} {e : Code} (h : decode F = .reject e) (s : State) :
    answerFrame F s = .next (s.reject e) := by
  have h' : decodeFor Config.maxPayload F = .reject e := h
  simp only [answerFrame, answerFrameFor, h']

/-- A frame is either a command, and then answered by its meaning, or rejected by the decoder. -/
theorem answerFrame_cases (F : Frame) (s : State) :
    (∃ i, decode F = .cmd i ∧ answerFrame F s = exec i s) ∨
    (∃ e, decode F = .reject e ∧ answerFrame F s = .next (s.reject e)) := by
  cases h : decode F with
  | cmd i => exact .inl ⟨i, rfl, answerFrame_cmd h s⟩
  | reject e => exact .inr ⟨e, rfl, answerFrame_reject h s⟩

theorem step_idle {s : State} (h : s.port = []) : step s = .next s := by
  simp only [step, nextEvent, h]

theorem step_event {s : State} {e : PortEvent} {rest : List PortEvent} (h : s.port = e :: rest) :
    step s = answerEvent e { s with port := rest } := by
  simp only [step, nextEvent, h]

/-- A step waits, resets, or answers the oldest frame. -/
theorem step_cases (s : State) :
    (s.port = [] ∧ step s = .next s) ∨
    (∃ rest, s.port = .reset :: rest ∧ step s = .next { State.reset with port := rest }) ∨
    (∃ F rest, s.port = .frame F :: rest ∧ step s = answerFrame F { s with port := rest }) := by
  cases h : s.port with
  | nil => exact .inl ⟨rfl, step_idle h⟩
  | cons e rest =>
    cases e with
    | reset => exact .inr (.inl ⟨rest, rfl, step_event h⟩)
    | frame F => exact .inr (.inr ⟨F, rest, rfl, step_event h⟩)

@[simp] theorem andThen_next (s : State) (f : State → Answer) : andThen (.next s) f = f s := rfl

@[simp] theorem runFrames_nil (s : State) : runFrames [] s = .next s := rfl

@[simp] theorem runFrames_cons (F : Frame) (Fs : List Frame) (s : State) :
    runFrames (F :: Fs) s = andThen (answerFrame F s) (runFrames Fs) := rfl

end Sys2Proof.Machine
end

