-- ==== Sys2Proof/Tests/Slice0.lean ====
section
/-!
SUPPORT. The model's own tests. Expected values are those of spec/95_test_vectors.md (the section is named at each test) or of
the rule's own example. The theorems named witness_X show states and operands that meet the hypotheses of Obligations.X.
-/

namespace Sys2Proof.Tests

open Sys2Proof Sys2Proof.Machine

/-! ## Fixtures -/

/-- The next state of an answer. -/
def after : Answer → Option State
  | .next s => some s
  | .fault _ => none
  | .refused _ => none

theorem next_of_after {a : Answer} {t : State} (h : after a = some t) : a = .next t := by
  cases a with
  | next s => exact congrArg Host.Outcome.next (Option.some.inj h)
  | fault r => cases h
  | refused r => cases h

/-- The Secret `K0` of spec/95_test_vectors.md. -/
def secret0 : List Byte := [0x00, 0x01, 0x02, 0x03, 0x04, 0x05, 0x06, 0x07, 0x08, 0x09, 0x0a, 0x0b, 0x0c, 0x0d, 0x0e, 0x0f]

/-- The lanes after INIT with `K0` (section 2, row 1). -/
def lanes0 : Lanes := ⟨0x7469686173716475, 0x6b617f6d656e6665, 0x6b7f62616d677361, 0x7b6b696e727e6c7b⟩

/-- After `KEY K0` (section 11, P1 line 1). -/
def keyed : State := { State.reset with k := ⟨0x0706050403020100, 0x0f0e0d0c0b0a0908⟩, kv := true }

/-- After INIT (section 11, P3 line 2). -/
def opened : State := { keyed with v := lanes0, ph := .absorb }

/-- After UPDATE with `msg(7)` (section 5). -/
def buffered : State := { opened with pend := 0x0006050403020100, fill := 7, len := 0x07 }

/-- After UPDATE with `msg(15)` (section 5; section 11, P3 line 6). -/
def absorbed : State := { opened with
  v := ⟨0x4a017198de0a59e0, 0x0d52f6f62a4f59a4, 0x634cb3577b01fd3d, 0xa5224d6f55c7d9c8⟩
  pend := 0x000e0d0c0b0a0908, fill := 7, len := 0x0f }

/-- After FINISH or HASH of `msg(15)` (section 11, P1 line 2). -/
def finished : State := { absorbed with
  v := ⟨0xf6bcd53893fecff1, 0x54b9964c7ea0d937, 0x1b38329c099bb55a, 0x1814bb89ad7be679⟩
  ph := .done, out := 0xa129ca6149be45e5 }

/-- After HASH of the empty message (section 10, V8). -/
def emptyHashed : State := { keyed with
  v := ⟨0xe738d0dfdc9b2453, 0x214ac5771e0c4cd2, 0xe2ea71f68a57ef6d, 0x56f7bf1995ce89dd⟩
  ph := .done, out := 0x726fdb47dd0e0e31 }

/-- `msg(15)` of spec/95_test_vectors.md. -/
def msg15 : List Byte := secret0.take 15

/-! ## Well-formedness: an ill-formed term for each check -/

theorem test_key_15_bytes_ill_formed : ¬ WellFormed (.key (secret0.take 15)) := by decide
theorem test_key_17_bytes_ill_formed : ¬ WellFormed (.key (secret0 ++ [0x10])) := by decide
theorem test_key_16_bytes_well_formed : WellFormed (.key secret0) := by decide
theorem test_key_over_bound_ill_formed : wellFormedFor (some 15) (.key secret0) = false := by decide
theorem test_update_over_bound_ill_formed : wellFormedFor (some 3) (.update [0, 1, 2, 3]) = false := by decide
theorem test_hash_over_bound_ill_formed : wellFormedFor (some 3) (.hash [0, 1, 2, 3]) = false := by decide
theorem test_hash_at_bound_well_formed : wellFormedFor (some 4) (.hash [0, 1, 2, 3]) = true := by decide

/-! ## Decoding (section 9.1) -/

theorem test_decode_cfg : decode [0x01, 0x02, 0x04] = .cmd (.cfg 2 4) ∧ decode [0x01, 0x02] = .reject .eFrame ∧
    decode [0x01, 0x02, 0x04, 0x00] = .reject .eFrame := by decide
theorem test_decode_key : decode (0x02 :: secret0) = .cmd (.key secret0) ∧
    decode (0x02 :: secret0.take 15) = .reject .eKeylen ∧ decode (0x02 :: secret0 ++ [0x10]) = .reject .eKeylen := by
  decide
theorem test_decode_init : decode [0x03] = .cmd .init ∧ decode [0x03, 0x00] = .reject .eFrame := by decide
theorem test_decode_update : decode [0x04] = .cmd (.update []) ∧ decode [0x04, 0x05] = .cmd (.update [0x05]) := by decide
theorem test_decode_finish : decode [0x05] = .cmd .finish ∧ decode [0x05, 0x00] = .reject .eFrame := by decide
theorem test_decode_hash : decode [0x06] = .cmd (.hash []) ∧ decode [0x06, 0x06, 0x06] = .cmd (.hash [0x06, 0x06]) := by
  decide
theorem test_decode_rejects : decode [] = .reject .eFrame ∧ decode [0x00, 0x00, 0x00] = .reject .eIllegal ∧
    decode [0x07] = .reject .eIllegal ∧ decode [0x80] = .reject .eIllegal ∧ decode [0x81] = .reject .eIllegal ∧
    decode [0xff] = .reject .eIllegal := by decide

/-- The rows of spec/opcode_table.json: eight bits each, operand bytes zero. -/
theorem test_table_words : decodeTableWord 8 0x01 = some (.cfg 0 0) ∧
    decodeTableWord 8 0x02 = some (.key (List.replicate 16 0)) ∧ decodeTableWord 8 0x03 = some .init ∧
    decodeTableWord 8 0x04 = some (.update []) ∧ decodeTableWord 8 0x05 = some .finish ∧
    decodeTableWord 8 0x06 = some (.hash []) ∧ decodeTableWord 24 0x040201 = some (.cfg 2 4) ∧
    decodeTableWord 8 0x07 = none := by decide

/-- 30_encoding.md R81, with section 11's lines. -/
theorem test_assembler : assembleLine "CFG 1, 3".toList = some [0x01, 0x01, 0x03] ∧
    assembleLine "UPDATE 0b 0C ; comment".toList = some [0x04, 0x0b, 0x0c] ∧ assembleLine "INIT".toList = some [0x03] ∧
    assembleLine "KEY 00 ff".toList = some [0x02, 0x00, 0xff] ∧ assembleLine "CFG 256, 1".toList = none := by decide

/-! ## The round and absorption -/

/-- Section 3.1. -/
theorem test_rotl : rotl 0x0123456789abcdef 13 = 0x68acf13579bde024 ∧ rotl 0x0123456789abcdef 21 = 0xacf13579bde02468 ∧
    rotl 0x0123456789abcdef 32 = 0x89abcdef01234567 ∧ rotl 1 63 = 0x8000000000000000 := by decide

/-- Section 3.2, rows 9 and 11. -/
theorem test_sipRound : sipRound lanes0
      = ⟨0x6864848c93698c85, 0x41d43f143c94a7dc, 0xf3f94792d7121732, 0x5e52f75805987c12⟩ ∧
    sipRound ⟨0x0123456789abcdef, 0xfedcba9876543210, 0x0f1e2d3c4b5a6978, 0x8796a5b4c3d2e1f0⟩
      = ⟨0x33001123eeddccfd, 0x1d0b375d48a3fad5, 0x88eb2b8cff61c426, 0x177dca9a711bacff⟩ := by decide

/-- Section 3.3, row `n = 4`. -/
theorem test_rounds : rounds lanes0 4
    = ⟨0x3abf7346c94dcef0, 0xb93544252df3d2e3, 0x4757805fba560765, 0x558977760fce9e72⟩ := by decide

/-- Section 4, rows 6 and 8. -/
theorem test_absorbBlock : absorbBlock lanes0 0xffffffffffffffff 2
      = ⟨0x27402b5dec61e378, 0xd2c7e7018df56131, 0x22635692bbdd9127, 0xa914736fea87a23c⟩ ∧
    absorbBlock ⟨0, 0, 0, 0⟩ 0xffffffffffffffff 2
      = ⟨0x0000000000000001, 0xffffffffffffffff, 0xffffffffffffffff, 0x0000000000000001⟩ := by decide

/-! ## One step of each command -/

/-- Section 10, V1. -/
theorem test_cfg_extremes : after (answerFrame [0x01, 0xff, 0xff] State.reset)
    = some { State.reset with rcC := 255, rcD := 255 } := by decide

/-- Section 9.2, row 4: in a session the phase is tested before the counts. -/
theorem test_cfg_in_session : after (answerFrame [0x01, 0x00, 0x00] opened) = some { opened with err := .ePhase } := by
  decide

/-- Section 10, V5: KEY in a session keeps the lanes. -/
theorem test_key_in_session : after (answerFrame (0x02 :: List.replicate 16 0xff) absorbed)
    = some { absorbed with k := ⟨0xffffffffffffffff, 0xffffffffffffffff⟩, ph := .idle } := by decide

/-- Section 2, row 8: which Secret byte goes where. -/
theorem test_key_bytes : keyDerive secret0.reverse = ⟨0x08090a0b0c0d0e0f, 0x0001020304050607⟩ := by decide

/-- Section 10, V7: INIT in `DONE` keeps `OUT`. -/
theorem test_init_in_done : after (answerFrame [0x03] emptyHashed)
    = some { opened with out := 0x726fdb47dd0e0e31 } := by decide

/-- Section 9.2: INIT with no key. -/
theorem test_init_nokey : after (answerFrame [0x03] State.reset) = some { State.reset with err := .eNokey } := by decide

/-- Section 5: `msg(15)` cut after seven bytes. -/
theorem test_update_across_block : after (answerFrame (0x04 :: msg15.drop 7) buffered) = some absorbed := by decide

/-- Section 11, P4 line 17. -/
theorem test_update_after_finish : after (answerFrame [0x04, 0x08] finished) = some { finished with err := .ePhase } := by
  decide

/-- Section 11, P3 line 7. -/
theorem test_finish : after (answerFrame [0x05] absorbed) = some finished := by decide

/-- Section 11, P4 line 18. -/
theorem test_finish_twice : after (answerFrame [0x05] finished) = some { finished with err := .ePhase } := by decide

/-- Section 11, P1 line 2. -/
theorem test_hash_msg15 : after (answerFrame (0x06 :: msg15) keyed) = some finished := by decide

/-- Section 8, row (1, 3), `n = 8`. -/
theorem test_hash_counts : (after (answerFrame (0x06 :: secret0.take 8) { keyed with rcC := 1, rcD := 3 })).map (·.out)
    = some 0x369095118d299a8e := by decide

/-- Section 11, P1: the status port in the end state. -/
theorem test_statusPort : statusPort finished = 0x04020006 := by decide

/-- Reset taken from the port leaves what is still to be delivered. -/
theorem test_step_reset : after (step { finished with port := [.reset, .frame [0x03]] })
    = some { State.reset with port := [.frame [0x03]] } := by decide

theorem test_withFetchWord : after (step (State.reset.withFetchWord 8 0x05)) = some { State.reset with err := .ePhase } := by
  decide

/-! ## Witnesses -/

theorem witness_DecoderTestsEmptinessOpcodeLength :
    [(0 : Byte)].length ≠ 2 ∧ [(0 : Byte), 0, 0].length ≠ 2 ∧ secret0.length = 16 ∧ (secret0.take 15).length ≠ 16 ∧
    (secret0 ++ [0x10]).length ≠ 16 ∧ [(0 : Byte)].length ≠ 0 ∧
    (∀ op ∈ [(0x00 : Byte), 0x07, 0xff], op ≠ 0x01 ∧ op ≠ 0x02 ∧ op ≠ 0x03 ∧ op ≠ 0x04 ∧ op ≠ 0x05 ∧ op ≠ 0x06) := by
  decide

theorem witness_DecodeAndEncodeAgree : wellFormedFor (some 16) (.key secret0) = true ∧
    decodeFor (some 16) (encode (.key secret0)) = .cmd (.key secret0) := by decide

theorem witness_ReservedOpcodesAreIllegal : reservedOpcode 0x00 = true ∧ reservedOpcode 0x07 = true ∧
    reservedOpcode 0xff = true ∧ reservedOpcode 0x06 = false ∧ opened.ph = .absorb := by decide

theorem witness_LengthViolationsAndPayloadBound : msg15.length > 14 ∧ secret0.length > 15 ∧ secret0.length = 16 ∧
    (0x06 :: msg15).length ≤ 15 + 1 ∧ (secret0.take 15).length ≠ 16 := by decide

theorem witness_StepRunsTheDecodedFrame :
    (State.reset.withFetchWord 8 0x03).port = [.frame [0x03]] ∧ decode [0x03] = .cmd .init ∧
    decode [0x07] = .reject .eIllegal ∧ { keyed with port := [.frame [0x07]] }.port = [.frame [0x07]] ∧
    { keyed with port := [.reset] }.port = [.reset] ∧ keyed.port = [] ∧ decodeTableWord 8 0x06 = some (.hash []) := by
  decide

theorem witness_RunIsTheFoldOverItsFrames : { keyed with port := [.frame [0x03], .frame [0x05], .reset] }.port
    = [[0x03], [0x05]].map PortEvent.frame ++ [.reset] := by decide

theorem witness_CommandsDoNotSeeThePort : exec (.hash msg15) { keyed with port := [.reset] }
    = .next { finished with port := [.reset] } := next_of_after (by decide)

theorem witness_ResetLoadsEveryRegister : { finished with port := [.reset, .reset] }.port = [.reset, .reset] := by decide

theorem witness_CfgSetsTheRoundCounts : ([0x01, 0x02] : Frame).length ≠ 3 ∧ ([0x01, 0x02, 0x04, 0x00] : Frame).length ≠ 3 ∧
    opened.ph = .absorb ∧ keyed.ph ≠ .absorb ∧ finished.ph ≠ .absorb ∧ ((0 : Byte) = 0 ∨ (4 : Byte) = 0) ∧
    (1 : Byte) ≠ 0 ∧ (255 : Byte) ≠ 0 := by decide

theorem witness_KeyDeriveIsABijection : secret0.length = 16 ∧ 7 < 8 := by decide

theorem witness_KeyLoadsTheKeyLanes : secret0.length = 16 ∧ (secret0.take 15).length ≠ 16 ∧
    exec (.key secret0) State.reset = .next keyed ∧ (∀ F ∈ ([[0x06], [0x04]] : List Frame), decode F ≠ .cmd .init) ∧
    runFrames [[0x06], [0x04]] keyed = .next { emptyHashed with err := .ePhase } :=
  ⟨by decide, by decide, next_of_after (by decide), by decide, next_of_after (by decide)⟩

theorem witness_InitOpensASession : ([0x03, 0x00] : Frame).length ≠ 1 ∧ State.reset.kv = false ∧ keyed.kv = true ∧
    keyed.k = ⟨0x0706050403020100, 0x0f0e0d0c0b0a0908⟩ ∧ exec .init keyed = .next opened ∧
    decode (0x04 :: secret0.take 7) = .cmd (.update (secret0.take 7)) ∧
    runFrames [0x04 :: secret0.take 7] opened = .next buffered :=
  ⟨by decide, by decide, by decide, by decide, next_of_after (by decide), by decide, next_of_after (by decide)⟩

theorem witness_InitFinishHashesTheEmptyMessage : keyed.kv = true := by decide

theorem witness_WordOperatorsWrapAndRotate : (0 < 1 ∧ 1 < 64 ∧ 63 < 64) ∧ (0 < 63 ∧ 63 < 64 ∧ 0 < 64) := by decide

theorem witness_RoundInSingleAssignmentForm : ∃ a b c d a1 b1 b2 b3 b4 a2 a3 c1 c2 c3 d1 d2 d3 d4 : Word,
    a1 = a + b ∧ c1 = c + d ∧ b1 = rotl b 13 ∧ d1 = rotl d 16 ∧ b2 = b1 ^^^ a1 ∧ d2 = d1 ^^^ c1 ∧ a2 = rotl a1 32 ∧
    c2 = c1 + b2 ∧ a3 = a2 + d2 ∧ b3 = rotl b2 17 ∧ d3 = rotl d2 21 ∧ b4 = b3 ^^^ c2 ∧ d4 = d3 ^^^ a3 ∧ c3 = rotl c2 32 :=
  ⟨0x7469686173716475, 0x6b617f6d656e6665, 0x6b7f62616d677361, 0x7b6b696e727e6c7b, _, _, _, _, _, _, _, _, _, _, _, _, _, _,
    rfl, rfl, rfl, rfl, rfl, rfl, rfl, rfl, rfl, rfl, rfl, rfl, rfl, rfl⟩

theorem witness_RoundIsABijection : lanes0.v0 = (initLanes keyed.k).v0 ∧ lanes0.v1 = (initLanes keyed.k).v1 ∧
    lanes0.v2 = (initLanes keyed.k).v2 ∧ lanes0.v3 = (initLanes keyed.k).v3 := by decide

theorem witness_LittleEndianIsTheWeightedSum : (secret0.take 8).length ≤ 8 ∧ 7 < (secret0.take 8).length ∧
    (secret0.take 7).length ≤ 8 ∧ (secret0.take 7).length ≤ 7 ∧ 7 ≤ 7 := by decide

theorem witness_BlockReadIsEightByteReads : 8 + 8 ≤ secret0.length ∧ 7 < 8 := by decide

theorem witness_TailHoldsTheLeftoverBytes : secret0.length % 8 = 0 ∧ 6 < msg15.length % 8 ∧ msg15.length % 8 ≤ 7 := by
  decide

theorem witness_FinalLaneIsTailAndTag : (msg15.drop 8).length ≤ 7 ∧ 6 < (msg15.drop 8).length ∧
    ([] : List Byte).length ≤ 6 ∧ absorbed.ph = .absorb ∧ exec .finish absorbed = .next finished ∧ keyed.kv = true ∧
    exec (.hash msg15) keyed = .next finished ∧ Reachable keyed :=
  ⟨by decide, by decide, by decide, by decide, next_of_after (by decide), by decide, next_of_after (by decide),
    .step (.reset [.frame (0x02 :: secret0)]) (next_of_after (by decide))⟩

theorem witness_LengthTagIsTheLowByte : keyed.kv = true ∧ exec (.hash msg15) keyed = .next finished ∧
    (List.replicate 271 (0 : Byte)).length % 256 = msg15.length % 256 ∧
    (∃ u, exec (.hash (List.replicate 271 0)) keyed = .next u) :=
  ⟨by decide, next_of_after (by decide), by rw [List.length_replicate]; decide, _, exec_hash_ok rfl _⟩

theorem witness_PushByteBuffersOrAbsorbs :
    ({ buffered with fill := 6, pend := 0x50403020100 }.fill.toNat < 7 ∧
      { buffered with fill := 6, pend := 0x50403020100 }.pend.toNat < 2 ^ (8 * 6)) ∧
    buffered.fill.toNat = 7 ∧ (secret0.take 8).length = 8 ∧ opened.pend = 0 ∧ opened.fill = 0 := by decide

theorem witness_UpdateAbsorbsThePayload : finished.ph ≠ .absorb ∧ buffered.ph = .absorb ∧
    buffered.pend.toNat < 2 ^ (8 * buffered.fill.toNat) ∧ buffered.fill.toNat + ([] : List Byte).length < 8 ∧
    exec (.update []) buffered = .next buffered ∧
    (opened.ph = .absorb ∧ opened.pend = 0 ∧ opened.fill = 0 ∧ opened.len = 0 ∧ opened.rcC = 2 ∧ opened.v = lanes0) :=
  ⟨by decide, by decide, by decide, by decide, next_of_after (by decide), by decide⟩

theorem witness_ChunkingDoesNotMatter : buffered.ph = .absorb ∧ [msg15, [], secret0] ≠ [] := by decide

theorem witness_IncrementalPathEqualsBatchPath :
    opened.ph = .absorb ∧ opened.fill = 0 ∧ opened.pend = 0 ∧ opened.len = 0 := by decide

theorem witness_FinishProducesTheDigest : ([0x05, 0x00] : Frame).length ≠ 1 ∧ keyed.ph ≠ .absorb ∧ absorbed.ph = .absorb ∧
    finished.v = rounds (xorV2 0xff (absorbBlock absorbed.v (finalLane absorbed.pend absorbed.len) absorbed.rcC.toNat))
      absorbed.rcD.toNat ∧
    exec .finish absorbed = .next finished ∧ keyed.kv = true ∧ exec .init keyed = .next opened ∧
    StateInv { opened with len := 8 } ∧ { opened with len := 8 }.fill = 0 ∧
    absorbed.pend = 0x000e0d0c0b0a0908 ∧ absorbed.len = 0x0f ∧ absorbed.rcC = 2 ∧ absorbed.rcD = 4 ∧
    absorbed.v = ⟨0x4a017198de0a59e0, 0x0d52f6f62a4f59a4, 0x634cb3577b01fd3d, 0xa5224d6f55c7d9c8⟩ :=
  ⟨by decide, by decide, by decide, by decide, next_of_after (by decide), by decide, next_of_after (by decide),
    ⟨by decide, by decide, by decide, by decide, by decide, by decide, by decide, by decide, by decide, by decide⟩,
    by decide, by decide, by decide, by decide, by decide, by decide⟩

theorem witness_HashComputesTheDigest : State.reset.kv = false ∧ keyed.kv = true ∧ absorbed.kv = true ∧
    keyed.k = absorbed.k ∧ keyed.rcC = absorbed.rcC ∧ keyed.rcD = absorbed.rcD ∧
    finished.v = (finalize (batchAbsorb (initLanes keyed.k) msg15 keyed.rcC.toNat)
      (finalLane (tail msg15) (BitVec.ofNat 8 (msg15.length % 256))) keyed.rcC.toNat keyed.rcD.toNat).1 ∧
    exec (.hash msg15) keyed = .next finished ∧ keyed.k = ⟨0x0706050403020100, 0x0f0e0d0c0b0a0908⟩ ∧ keyed.rcC = 2 ∧
    keyed.rcD = 4 :=
  ⟨by decide, by decide, by decide, by decide, by decide, by decide, by decide, next_of_after (by decide), by decide,
    by decide, by decide⟩

theorem witness_HashEqualsTheStreamingSequence : keyed.kv = true ∧ [msg15.take 3, [], msg15.drop 3].flatten = msg15 := by
  decide

theorem witness_SessionHashesItsMessage : keyed.kv = true ∧
    (∀ F ∈ ([[0x04, 0x00], [0x07], [], [0x01, 0x02, 0x04], [0x04], [0x02, 0x00]] : List Frame), keepsSession F = true) ∧
    sessionMessage [[0x04, 0x00], [0x07], [0x04, 0x01]] = [0x00, 0x01] ∧ 7 < 8 * (msg15.length / 8) := by decide

theorem witness_DriversAgree : secret0.length = 16 ∧ [msg15.take 3, [], msg15.drop 3].flatten = msg15 ∧
    (1 : Byte) ≠ 0 ∧ (3 : Byte) ≠ 0 ∧ finished.ph ≠ .absorb := by decide

theorem witness_RejectionChangesOnlyErr : answerFrame [0x07] finished = .next { finished with err := .eIllegal } ∧
    Code.eIllegal ≠ .ok ∧ exec (.hash []) State.reset = .next { State.reset with err := .eNokey } ∧ Code.eNokey ≠ .ok :=
  ⟨next_of_after (by decide), by decide, next_of_after (by decide), by decide⟩

theorem witness_RejectionIsNotSticky : answerFrame [0x05] keyed = .next { keyed with err := .ePhase } ∧
    Code.ePhase ≠ .ok ∧ ([[0x03]] : List Frame) ≠ [] := ⟨next_of_after (by decide), by decide, by decide⟩

theorem witness_ErrHoldsTheLastResponse : decode [0x01, 0x01, 0xff] = .cmd (.cfg 1 255) ∧ (1 : Byte) ≠ 0 ∧ (255 : Byte) ≠ 0 ∧
    allowedIn (.cfg 1 255) finished ∧ allowedIn (.update []) opened ∧ allowedIn .init keyed :=
  ⟨by decide, by decide, by decide, .inr rfl, rfl, rfl⟩

theorem witness_DataCausesNoRejection : ([0x06, 0x00] : Frame).head? = ([0x06, 0xff] : Frame).head? ∧
    ([0x06, 0x00] : Frame).length = ([0x06, 0xff] : Frame).length ∧ ([0x06, 0x00] : Frame).head? ≠ some 0x01 ∧
    keyed.kv = { keyed with v := lanes0, len := 9 }.kv ∧ keyed.ph = { keyed with v := lanes0, len := 9 }.ph := by decide

theorem witness_NoKeyUntilTheFirstKey :
    answerFrame [0x03] State.reset = .next { State.reset with err := .eNokey } ∧
    answerFrame (0x02 :: secret0) State.reset = .next keyed ∧ State.reset.kv = false ∧ keyed.kv = true ∧
    step { finished with port := [.reset] } = .next State.reset ∧ finished.kv = true :=
  ⟨next_of_after (by decide), next_of_after (by decide), by decide, by decide, next_of_after (by decide), by decide⟩

theorem witness_KeyLanesAreWrittenByKeyOnly :
    step { State.reset with port := [.frame (0x02 :: secret0)] } = .next keyed ∧ keyed.k ≠ State.reset.k ∧
    step { finished with port := [.reset] } = .next State.reset ∧ State.reset.k ≠ finished.k :=
  ⟨next_of_after (by decide), by decide, next_of_after (by decide), by decide⟩

theorem witness_OutIsWrittenByDigestsOnly : answerFrame [0x05] absorbed = .next finished ∧ finished.out ≠ absorbed.out ∧
    finished.err = .ok ∧ decode [0x05] = .cmd .finish ∧ answerFrame [0x06] keyed = .next emptyHashed ∧
    decode [0x06] = .cmd (.hash []) :=
  ⟨next_of_after (by decide), by decide, by decide, by decide, next_of_after (by decide), by decide⟩

theorem witness_CommandsWriteOnlyTheirRegisters :
    exec (.cfg 1 3) keyed = .next { keyed with rcC := 1, rcD := 3 } ∧ exec (.key secret0) State.reset = .next keyed ∧
    exec .init keyed = .next opened ∧ exec (.update (secret0.take 7)) opened = .next buffered ∧
    opened.fill.toNat + (secret0.take 7).length < 8 ∧ exec .finish absorbed = .next finished ∧
    exec (.hash msg15) keyed = .next finished ∧ keyed.kv = true :=
  ⟨next_of_after (by decide), next_of_after (by decide), next_of_after (by decide), next_of_after (by decide), by decide,
    next_of_after (by decide), next_of_after (by decide), by decide⟩

theorem witness_PhaseFollowsItsTable : exec .init keyed = .next opened ∧ opened.err = .ok ∧
    exec .finish keyed = .next { keyed with err := .ePhase } ∧ Code.ePhase ≠ .ok ∧ allowedIn .init keyed ∧
    WellFormed .init ∧ answerFrame [0x07] opened = .next { opened with err := .eIllegal } :=
  ⟨next_of_after (by decide), by decide, next_of_after (by decide), by decide, rfl, by decide, next_of_after (by decide)⟩

theorem witness_FreshStartIgnoresTheOldSession : keyed.kv = true ∧ buffered.kv = true ∧ keyed.k = buffered.k ∧
    keyed.rcC = buffered.rcC ∧ keyed.rcD = buffered.rcD ∧ exec .init keyed = .next opened ∧
    exec (.hash msg15) keyed = .next finished ∧ exec (.hash msg15) buffered = .next finished ∧
    exec .finish finished = .next { finished with err := .ePhase } :=
  ⟨by decide, by decide, by decide, by decide, by decide, next_of_after (by decide), next_of_after (by decide),
    next_of_after (by decide), next_of_after (by decide)⟩

theorem witness_EveryStepKeepsTheInvariants : StateInv { absorbed with port := [.frame [0x05]] } ∧
    step { absorbed with port := [.frame [0x05]] } = .next finished :=
  ⟨⟨by decide, by decide, by decide, by decide, by decide, by decide, by decide, by decide, by decide, by decide⟩,
    next_of_after (by decide)⟩

theorem witness_ReachableStatesMeetTheInvariants : Reachable opened :=
  .step (.step (.reset [.frame (0x02 :: secret0), .frame [0x03]]) (next_of_after (by decide))) (t := opened)
    (next_of_after (a := step { keyed with port := [.frame [0x03]] }) (by decide))

theorem witness_EveryStepKeepsTheOutputCurrent : OutputCurrent { finished with port := [.frame [0x06]] } ∧
    finished.ph = .done ∧ step { finished with port := [.frame [0x06]] } = .next emptyHashed :=
  ⟨fun _ => by decide, by decide, next_of_after (by decide)⟩

theorem witness_LanesFollowTheirOperations : exec (.hash msg15) keyed = .next finished := next_of_after (by decide)

theorem witness_RoundCountsOfTheCommands : opened.ph = .absorb ∧ keyed.kv = true ∧ keyed.rcC = 2 ∧ keyed.rcD = 4 := by
  decide

theorem witness_LaneOperationsDoNotDependOnData :
    opcodeOf (.hash [0x00]) = opcodeOf (.hash [0xff]) ∧ (encode (.hash [0x00])).length = (encode (.hash [0xff])).length ∧
    (∀ u ∈ [{ keyed with k := ⟨0, 0⟩, pend := 1 }], keyed.rcC = u.rcC ∧ keyed.rcD = u.rcD ∧ keyed.fill = u.fill ∧
      keyed.ph = u.ph ∧ keyed.kv = u.kv) := by decide

end Sys2Proof.Tests
end

/-! ## Family 00_scope: little-endian assembly (R9) and payload reads (R11) -/

namespace Sys2Proof.Machine

open Sys2Proof

/-- The value of a byte sequence, defined by recursion, as R9's weighted sum. -/
theorem leValue_eq_sum (bs : List Byte) :
    leValue bs = ((List.range bs.length).map fun j => (bs.getD j 0).toNat * 2 ^ (8 * j)).sum := by
  induction bs with
  | nil => simp
  | cons b bs ih =>
    have hw (j : Nat) : 2 ^ (8 * (j + 1)) = 2 ^ 8 * 2 ^ (8 * j) := by rw [← pow_add]; congr 1; omega
    have hterm (j : Nat) : ((b :: bs).getD (j + 1) 0).toNat * 2 ^ (8 * (j + 1)) =
        2 ^ 8 * ((bs.getD j 0).toNat * 2 ^ (8 * j)) := by rw [List.getD_cons_succ, hw, Nat.mul_left_comm]
    rw [leValue_cons, ih, List.length_cons, List.range_succ_eq_map, List.map_cons, List.sum_cons, List.map_map,
      ← List.sum_map_mul_left]
    simp only [Function.comp_def, Nat.succ_eq_add_one, hterm, List.getD_cons_zero, Nat.mul_zero, pow_zero, Nat.mul_one]

/-- One byte placed at byte `j` of a word is its term of R9's sum. -/
theorem le_singleton_shiftLeft (b : Byte) (j : Nat) :
    le [b] <<< (8 * j) = BitVec.ofNat 64 (b.toNat * 2 ^ (8 * j)) := by
  apply BitVec.eq_of_toNat_eq
  simp [le, Nat.shiftLeft_eq]

/-- R9's sum taken in words: each byte is assembled alone, then shifted to its place. -/
theorem le_eq_sum_shiftLeft (bs : List Byte) :
    le bs = ((List.range bs.length).map fun j => le [bs.getD j 0] <<< (8 * j)).sum := by
  simp only [le_singleton_shiftLeft, ← BitVec.natCast_eq_ofNat]
  rw [le, leValue_eq_sum, ← BitVec.natCast_eq_ofNat, Nat.cast_list_sum, List.map_map]
  rfl

/-- Byte `j` of a payload slice is payload byte `i + j`. -/
theorem getD_take_drop (P : List Byte) (i : Nat) {j m : Nat} (h : j < m) :
    ((P.drop i).take m).getD j 0 = P.getD (i + j) 0 := by
  simp [List.getD_eq_getElem?_getD, h]

/-- Byte `j` of a payload read is payload byte `i + j` (R9, R11). -/
theorem byteOf_memRead (P : List Byte) (i : Nat) {j m : Nat} (hm : m ≤ 8) (h : j < m) :
    byteOf (memRead P i m) j = P.getD (i + j) 0 := by
  rw [memRead, byteOf_le ((memRead_length_le P i m).trans hm), getD_take_drop P i h]

/-- A 1-byte read inside the payload assembles that byte. -/
theorem memRead_one {P : List Byte} {i : Nat} (h : i < P.length) : memRead P i 1 = le [P.getD i 0] := by
  rw [memRead, List.take_one_drop_eq_of_lt_length h, List.getD_eq_getElem P 0 h, List.get_eq_getElem]

/-- A read inside the payload is the sum of its 1-byte reads, each shifted to its place. -/
theorem memRead_eq_sum_shiftLeft {P : List Byte} {i m : Nat} (h : i + m ≤ P.length) :
    memRead P i m = ((List.range m).map fun j => memRead P (i + j) 1 <<< (8 * j)).sum := by
  have hlen : ((P.drop i).take m).length = m := by simp; omega
  rw [memRead, le_eq_sum_shiftLeft, hlen]
  congr 1
  refine List.map_congr_left fun j hj => ?_
  have hj : j < m := List.mem_range.mp hj
  rw [getD_take_drop P i hj, memRead_one (by omega)]

/-- Settles O22: the sum is `leValue_eq_sum`, and both byte clauses are `byteOf_le`, since `getD` is zero past the end. -/
theorem littleEndianIsTheWeightedSum : Obligations.LittleEndianIsTheWeightedSum := by
  refine ⟨fun bs h => ⟨?_, fun j _ => byteOf_le h j, fun j hj _ => ?_⟩, le_nil⟩
  · rw [le_toNat h, leValue_eq_sum]
  · rw [byteOf_le h, List.getD_eq_default bs 0 hj]

/-- Settles O23: the case `m = 8` of `memRead_eq_sum_shiftLeft`; the bytes are `byteOf_memRead` at widths 8 and 1. -/
theorem blockReadIsEightByteReads : Obligations.BlockReadIsEightByteReads := fun P i h =>
  ⟨memRead_eq_sum_shiftLeft h, fun _ hj =>
    ⟨byteOf_memRead P i le_rfl hj, byteOf_memRead P _ (by decide) Nat.zero_lt_one⟩⟩

end Sys2Proof.Machine

/-! ## Family 10_state: reset (R37), `ERR` (R30) and the invariants of the reachable states (R34) -/

namespace Sys2Proof.Machine

open Sys2Proof

/-! ### The invariants without their redundant clauses -/

/-- Clauses (b) and (c) of R34: what FINISH relies on when it reads the pending lane. -/
def PendingInv (pend : Word) (fill : BitVec 3) (len : Byte) : Prop :=
  pend.toNat < 2 ^ (8 * fill.toNat) ∧ len.toNat % 8 = fill.toNat

/-- A byte above a word's value is zero. -/
theorem byteOf_eq_zero_of_lt {w : Word} {j : Nat} (h : w.toNat < 2 ^ (8 * j)) : byteOf w j = 0 := by
  apply BitVec.eq_of_toNat_eq
  rw [byteOf_toNat, Nat.div_eq_of_lt h]
  rfl

theorem PendingInv.pend_top {pend : Word} {fill : BitVec 3} {len : Byte} (h : PendingInv pend fill len) :
    byteOf pend 7 = 0 := by
  have hf := fill.isLt
  exact byteOf_eq_zero_of_lt (h.1.trans_le (Nat.pow_le_pow_right (by omega) (by omega)))

/-- Clause (e) of R34: only the lower bound says anything of a byte. -/
theorem count_range_iff (n : Byte) : (1 ≤ n.toNat ∧ n.toNat ≤ 255) ↔ n ≠ 0 := by
  bv_omega

/-- What is left of R34 where the register widths and the named values already give clauses (a), (f) and (g). -/
theorem stateInv_iff (s : State) : StateInv s ↔
    PendingInv s.pend s.fill s.len ∧ (s.ph ≠ .idle → s.kv = true) ∧ s.rcC ≠ 0 ∧ s.rcD ≠ 0 := by
  constructor
  · intro h
    refine ⟨⟨h.pend_clean, h.len_fill⟩, fun hph => ?_, (count_range_iff _).1 h.c_range, (count_range_iff _).1 h.d_range⟩
    cases hp : s.ph with
    | idle => exact absurd hp hph
    | absorb => exact h.absorb_keyed hp
    | done => exact h.done_keyed hp
  · rintro ⟨hpend, hkv, hc, hd⟩
    have hf := s.fill.isLt
    exact {
      fill_range := by omega
      pend_clean := hpend.1
      pend_top := hpend.pend_top
      len_fill := hpend.2
      absorb_keyed := fun hp => hkv (by simp [hp])
      done_keyed := fun hp => hkv (by simp [hp])
      c_range := (count_range_iff _).2 hc
      d_range := (count_range_iff _).2 hd
      phase_legal := by cases s.ph <;> decide
      code_legal := by cases s.err <;> decide }

/-- The invariants speak neither of which code `ERR` holds nor of the port. -/
theorem StateInv.with_err_port {s : State} (h : StateInv s) (e : Code) (p : List PortEvent) :
    StateInv { s with err := e, port := p } :=
  (stateInv_iff _).2 ((stateInv_iff s).1 h)

/-! ### The pending lane: cleared, filled by a byte, filled by HASH -/

theorem pendingInv_zero : PendingInv 0 0 0 := by simp [PendingInv]

/-- A byte that leaves the block incomplete: the lane then assembles one byte more. -/
theorem PendingInv.push {pend : Word} {fill : BitVec 3} {len : Byte} (h : PendingInv pend fill len)
    (hf : fill.toNat < 7) (b : Byte) :
    PendingInv (pend ||| (zext64 b <<< (8 * fill.toNat))) (fill + 1) (len + 1) := by
  obtain ⟨hclean, hlen⟩ := h
  have hfill : (fill + 1).toNat = fill.toNat + 1 := by bv_omega
  have hcat : pend ||| (zext64 b <<< (8 * fill.toNat)) = le (bufferedBytes pend fill ++ [b]) := by
    rw [le_concat (by simp; omega), le_bufferedBytes hclean, bufferedBytes_length]
  constructor
  · rw [hcat, le_toNat (by simp; omega), hfill]
    simpa using leValue_lt (bufferedBytes pend fill ++ [b])
  · rw [hfill]
    bv_omega

/-- A byte that completes the block: the lane is cleared, and `LEN` reaches a multiple of 8. -/
theorem PendingInv.complete {pend : Word} {fill : BitVec 3} {len : Byte} (h : PendingInv pend fill len)
    (hf : fill.toNat = 7) : PendingInv 0 0 (len + 1) := by
  obtain ⟨-, hlen⟩ := h
  constructor
  · simp
  · bv_omega

theorem memRead_lt (P : List Byte) (i : Nat) {m : Nat} (hm : m ≤ 8) : (memRead P i m).toNat < 2 ^ (8 * m) := by
  have hlen := memRead_length_le P i m
  rw [memRead, le_toNat (hlen.trans hm)]
  exact (leValue_lt _).trans_le (Nat.pow_le_pow_right (by omega) (by omega))

/-- HASH leaves the lane as the bytes after the last complete block (43_finalization.md R140). -/
theorem pendingInv_tail (P : List Byte) :
    PendingInv (tail P) (BitVec.ofNat 3 (P.length % 8)) (BitVec.ofNat 8 (P.length % 256)) := by
  have hfill : (BitVec.ofNat 3 (P.length % 8)).toNat = P.length % 8 := by simp
  constructor
  · rw [hfill]
    exact memRead_lt P _ (by omega)
  · simp

/-! ### The operations keep the invariants -/

theorem stateInv_reset (p : List PortEvent) : StateInv { State.reset with port := p } :=
  have hc : State.reset.rcC ≠ 0 := by decide
  have hd : State.reset.rcD ≠ 0 := by decide
  (stateInv_iff _).2 ⟨pendingInv_zero, fun h => absurd rfl h, hc, hd⟩

theorem pushByte_stateInv {s : State} (hs : StateInv s) (b : Byte) : StateInv (pushByte s b) := by
  obtain ⟨hpend, hrest⟩ := (stateInv_iff s).1 hs
  by_cases hf : s.fill.toNat < 7
  · rw [pushByte_of_lt hf]
    exact (stateInv_iff _).2 ⟨hpend.push hf b, hrest⟩
  · have hf : s.fill.toNat = 7 := by omega
    rw [pushByte_of_eq hf]
    exact (stateInv_iff _).2 ⟨hpend.complete hf, hrest⟩

theorem pushBytes_stateInv {s : State} (hs : StateInv s) (P : List Byte) : StateInv (pushBytes s P) := by
  induction P generalizing s with
  | nil => exact hs
  | cons b P ih => exact ih (pushByte_stateInv hs b)

/-- Every command answers a next state, and keeps the invariants: each writes the pending lane by one of the three ways
above, opens or closes a session only under a key, and writes no zero count. -/
theorem exec_stateInv (i : Instr) {s : State} (hs : StateInv s) : ∃ t, exec i s = .next t ∧ StateInv t := by
  obtain ⟨hpend, hkey, hcount⟩ := (stateInv_iff s).1 hs
  rcases exec_cases i s with ⟨e, -, he⟩ | ⟨c, d, -, -, hc, hd, he⟩ | ⟨secret, -, -, he⟩ | ⟨-, hkv, he⟩ |
    ⟨P, -, -, he⟩ | ⟨-, hph, he⟩ | ⟨P, -, hkv, he⟩
  · -- a rejection
    exact ⟨_, he, hs.with_err_port e s.port⟩
  · -- CFG
    exact ⟨_, he, (stateInv_iff _).2 ⟨hpend, hkey, hc, hd⟩⟩
  · -- KEY
    exact ⟨_, he, (stateInv_iff _).2 ⟨hpend, fun _ => rfl, hcount⟩⟩
  · -- INIT
    exact ⟨_, he, (stateInv_iff _).2 ⟨pendingInv_zero, fun _ => hkv, hcount⟩⟩
  · -- UPDATE
    exact ⟨_, he, (pushBytes_stateInv hs P).with_err_port .ok _⟩
  · -- FINISH
    exact ⟨_, he, (stateInv_iff _).2 ⟨hpend, fun _ => hs.absorb_keyed hph, hcount⟩⟩
  · -- HASH
    exact ⟨_, he, (stateInv_iff _).2 ⟨pendingInv_tail P, fun _ => hkv, hcount⟩⟩

theorem answerFrame_stateInv (F : Frame) {s : State} (hs : StateInv s) :
    ∃ t, answerFrame F s = .next t ∧ StateInv t := by
  rcases answerFrame_cases F s with ⟨i, -, ha⟩ | ⟨e, -, ha⟩
  · rw [ha]
    exact exec_stateInv i hs
  · exact ⟨_, ha, hs.with_err_port e s.port⟩

theorem step_stateInv {s : State} (hs : StateInv s) : ∃ t, step s = .next t ∧ StateInv t := by
  rcases step_cases s with ⟨-, hstep⟩ | ⟨rest, -, hstep⟩ | ⟨F, rest, -, hstep⟩
  · exact ⟨s, hstep, hs⟩
  · exact ⟨_, hstep, stateInv_reset rest⟩
  · rw [hstep]
    exact answerFrame_stateInv F (hs.with_err_port s.err rest)

/-- Settles O51: the one answer of `step` keeps the invariants, by `step_stateInv`. -/
theorem everyStepKeepsTheInvariants : Obligations.EveryStepKeepsTheInvariants := by
  intro s t hs h
  obtain ⟨u, hu, hinv⟩ := step_stateInv hs
  cases hu.symm.trans h
  exact hinv

/-! ### `ERR` -/

/-- A command of the decoder is well formed, which for KEY is the length of the Secret (30_encoding.md R77). -/
theorem wellFormedFor_of_decodeFor {max : Option Nat} {F : Frame} {i : Instr} (h : decodeFor max F = .cmd i) :
    wellFormedFor max i = true := by
  cases F with
  | nil => cases h
  | cons op rest =>
    simp only [decodeFor] at h
    split_ifs at h with _ _ hlen hfits _ _ _ hfits _ _ _ hfits
    · split at h <;> cases h
      rfl
    all_goals cases h
    · simp only [wellFormedFor, hlen, decide_true, Bool.true_and]
      exact hlen ▸ hfits
    · rfl
    · exact hfits
    · rfl
    · exact hfits

theorem key_length_of_decode {F : Frame} {secret : List Byte} (h : decode F = .cmd (.key secret)) :
    secret.length = 16 := by
  simpa [wellFormedFor, Config.maxPayload, Config.fits] using wellFormedFor_of_decodeFor h

/-- No command reads `ERR`, and each overwrites it; UPDATE after its absorption, the others at once. -/
theorem exec_err (i : Instr) (s : State) (e : Code) : exec i { s with err := e } = exec i s := by
  cases i with
  | update P =>
    by_cases hph : s.ph = .absorb
    · rw [exec_update_ok hph, exec_update_ok (s := { s with err := e }) hph, pushBytes_err]
      rfl
    · rw [exec_update_phase hph, exec_update_phase (s := { s with err := e }) hph]
      rfl
  | cfg c d => rfl
  | key secret => rfl
  | init => rfl
  | finish => rfl
  | hash P => rfl

theorem answerFrame_err (F : Frame) (s : State) (e : Code) : answerFrame F { s with err := e } = answerFrame F s := by
  cases hF : decode F with
  | cmd i => rw [answerFrame_cmd hF, answerFrame_cmd hF, exec_err]
  | reject code =>
    rw [answerFrame_reject hF, answerFrame_reject hF]
    rfl

/-- A command the phase and the key allow is rejected for a zero count or the Secret's length only. -/
theorem exec_ok_of_allowedIn {i : Instr} {s : State} (h : allowedIn i s)
    (hcfg : ∀ c d, i = .cfg c d → c ≠ 0 ∧ d ≠ 0) (hkey : ∀ secret, i = .key secret → secret.length = 16) :
    ∃ t, exec i s = .next t ∧ t.err = .ok := by
  cases i with
  | cfg c d =>
    obtain ⟨hc, hd⟩ := hcfg c d rfl
    have hph : s.ph ≠ .absorb := by
      rcases (h : s.ph = .idle ∨ s.ph = .done) with hp | hp <;> simp [hp]
    exact ⟨_, exec_cfg_ok hph hc hd, rfl⟩
  | key secret => exact ⟨_, exec_key_ok s (hkey secret rfl), rfl⟩
  | init => exact ⟨_, exec_init_ok h, rfl⟩
  | update P => exact ⟨_, exec_update_ok h P, rfl⟩
  | finish => exact ⟨_, exec_finish_ok h, rfl⟩
  | hash P => exact ⟨_, exec_hash_ok h P, rfl⟩

/-- Settles O39: the numbers by evaluation, the old `ERR` is `answerFrame_err`, and the acceptance is
`exec_ok_of_allowedIn`, where the decoder has tested the Secret's length. -/
theorem errHoldsTheLastResponse : Obligations.ErrHoldsTheLastResponse := by
  refine ⟨by decide, answerFrame_err, fun F s i hF hi hcfg => ?_⟩
  rw [answerFrame_cmd hF]
  exact exec_ok_of_allowedIn hi hcfg fun _ hkey => key_length_of_decode (hkey ▸ hF)

/-! ### The reachable states and reset -/

/-- Settles O52, by induction on the run. -/
theorem reachableStatesMeetTheInvariants : Obligations.ReachableStatesMeetTheInvariants := by
  intro s hs
  induction hs with
  | reset port => exact stateInv_reset port
  | step _ h ih => exact everyStepKeepsTheInvariants _ _ ih h

/-- Settles O11: the step answers the reset state with the rest of the port. -/
theorem resetLoadsEveryRegister : Obligations.ResetLoadsEveryRegister := by
  intro s rest h
  refine ⟨{ State.reset with port := rest }, step_event h, ?_⟩
  and_intros <;> rfl

/-- Settles O50: `OutputCurrent` has nothing to show in `IDLE`. -/
theorem resetMeetsTheInvariants : Obligations.ResetMeetsTheInvariants :=
  ⟨stateInv_reset [], fun h => nomatch h⟩

end Sys2Proof.Machine

/-! ## Family 20_memory: the message of a session (R51) -/

namespace Sys2Proof.Machine

open Sys2Proof

/-! ### The incremental path from an empty pending lane is the batch path (42_absorption.md R129) -/

/-- Fewer than eight bytes are only buffered. -/
theorem pushBytes_of_length_lt {s : State} (hfill : s.fill = 0) (hpend : s.pend = 0) {P : List Byte}
    (hP : P.length < 8) :
    pushBytes s P = { s with
      pend := le P, fill := BitVec.ofNat 3 P.length, len := s.len + BitVec.ofNat 8 P.length } := by
  induction P using List.reverseRecOn with
  | nil =>
    rw [pushBytes_nil, le_nil, List.length_nil, BitVec.add_zero, ← hpend]
    exact congrArg (fun f => { s with fill := f }) hfill
  | append_singleton P b ih =>
    rw [List.length_append, List.length_singleton] at hP ⊢
    have hfillP : (BitVec.ofNat 3 P.length).toNat = P.length := by simp; omega
    have hlt : (BitVec.ofNat 3 P.length).toNat < 7 := by omega
    rw [pushBytes_append, ih (by omega), pushBytes_cons, pushByte_of_lt hlt, pushBytes_nil,
      le_concat (by omega), hfillP, BitVec.ofNat_add, BitVec.ofNat_add, ← BitVec.add_assoc]
    rfl

/-- Eight bytes are absorbed as one block, and the pending lane is empty again. -/
theorem pushBytes_block {s : State} (hfill : s.fill = 0) (hpend : s.pend = 0) {B : List Byte} (hB : B.length = 8) :
    pushBytes s B = { s with v := absorbBlock s.v (le B) s.rcC.toNat, len := s.len + 8 } := by
  obtain rfl | ⟨A, b, rfl⟩ := List.eq_nil_or_concat' B
  · simp at hB
  have hA : A.length = 7 := by simpa using hB
  rw [pushBytes_append, pushBytes_of_length_lt hfill hpend (by omega), pushBytes_cons, pushBytes_nil, hA,
    pushByte_of_eq rfl, le_concat (by omega), hA, BitVec.add_assoc, hfill, hpend]
  rfl

/-- The blocks of the payload in order, and its tail left in the pending lane. -/
theorem pushBytes_eq_batchAbsorb {s : State} (hfill : s.fill = 0) (hpend : s.pend = 0) (P : List Byte) :
    pushBytes s P = { s with
      v := batchAbsorb s.v P s.rcC.toNat, pend := tail P, fill := BitVec.ofNat 3 P.length,
      len := s.len + BitVec.ofNat 8 P.length } := by
  induction hn : P.length / 8 generalizing s P with
  | zero =>
    have hP : P.length < 8 := by omega
    rw [pushBytes_of_length_lt hfill hpend hP, batchAbsorb_short _ hP, tail_short hP]
  | succ n ih =>
    obtain ⟨B, Q, hB, rfl⟩ : ∃ B Q, B.length = 8 ∧ P = B ++ Q :=
      ⟨P.take 8, P.drop 8, by simp; omega, (List.take_append_drop 8 P).symm⟩
    rw [List.length_append, hB] at hn ⊢
    have hlen : s.len + 8 + BitVec.ofNat 8 Q.length = s.len + BitVec.ofNat 8 (8 + Q.length) := by bv_omega
    have hfillQ : BitVec.ofNat 3 Q.length = BitVec.ofNat 3 (8 + Q.length) := by bv_omega
    have hQ := ih (s := { s with v := absorbBlock s.v (le B) s.rcC.toNat, len := s.len + 8 }) hfill hpend Q (by omega)
    rw [pushBytes_append, pushBytes_block hfill hpend hB, hQ, batchAbsorb_block _ hB, tail_block hB,
      hlen, hfillQ]

/-! ### The frames of a session -/

theorem pushBytes_ph (s : State) (P : List Byte) : (pushBytes s P).ph = s.ph := by
  obtain ⟨v, pend, fill, h⟩ := pushBytes_frame P s
  rw [h]

/-- A frame that keeps the session absorbs its part of the message; a rejected one absorbs nothing and writes `ERR`. -/
theorem answerFrame_of_keepsSession {F : Frame} (hF : keepsSession F = true) {s : State} (hph : s.ph = .absorb) :
    ∃ e, answerFrame F s = .next { pushBytes s (sessionPayload F) with err := e } := by
  cases hd : decode F with
  | reject e => exact ⟨e, by rw [answerFrame_reject hd, sessionPayload, hd]; rfl⟩
  | cmd i =>
    cases i with
    | update P => exact ⟨.ok, by rw [answerFrame_cmd hd, exec_update_ok hph, sessionPayload, hd]; rfl⟩
    | cfg c d => exact ⟨.ePhase, by rw [answerFrame_cmd hd, exec_cfg_phase hph, sessionPayload, hd]; rfl⟩
    | key | init | finish | hash => simp [keepsSession, hd] at hF

theorem runFrames_of_keepsSession {Fs : List Frame} (hFs : ∀ F ∈ Fs, keepsSession F = true) {s : State}
    (hph : s.ph = .absorb) :
    ∃ e, runFrames Fs s = .next { pushBytes s (sessionMessage Fs) with err := e } := by
  induction Fs generalizing s with
  | nil => exact ⟨s.err, rfl⟩
  | cons F Fs ih =>
    rw [List.forall_mem_cons] at hFs
    obtain ⟨e, hF⟩ := answerFrame_of_keepsSession hFs.1 hph
    obtain ⟨e', hrun⟩ := ih hFs.2 (s := { pushBytes s (sessionPayload F) with err := e })
      ((pushBytes_ph s _).trans hph)
    refine ⟨e', ?_⟩
    rw [runFrames_cons, hF, andThen_next, hrun, pushBytes_err, ← pushBytes_append]
    rfl

theorem runFrames_append (Fs Gs : List Frame) (s : State) :
    runFrames (Fs ++ Gs) s = andThen (runFrames Fs s) (runFrames Gs) := by
  induction Fs generalizing s with
  | nil => rfl
  | cons F Fs ih =>
    rw [List.cons_append, runFrames_cons, runFrames_cons]
    cases answerFrame F s with
    | next u => exact ih u
    | fault r => rfl
    | refused r => rfl

theorem runFrames_singleton (F : Frame) (s : State) : runFrames [F] s = answerFrame F s := by
  rw [runFrames_cons]
  cases answerFrame F s <;> rfl

/-! ### The session and HASH end in one state -/

/-- FINISH after the bytes of `M`, pushed from the state INIT leaves, ends as HASH of `M` (43_finalization.md R141). -/
theorem exec_finish_pushBytes {s t : State} (hkv : s.kv = true) (hinit : exec .init s = .next t) (M : List Byte)
    (e : Code) : exec .finish { pushBytes t M with err := e } = exec (.hash M) s := by
  cases (exec_init_ok hkv).symm.trans hinit
  have hfill : BitVec.ofNat 3 M.length = BitVec.ofNat 3 (M.length % 8) := by bv_omega
  have hlen : 0 + BitVec.ofNat 8 M.length = BitVec.ofNat 8 (M.length % 256) := by bv_omega
  rw [pushBytes_eq_batchAbsorb rfl rfl, exec_finish_ok rfl, exec_hash_ok hkv, hfill, hlen]
  rfl

/-- Settles O35: the session's frames push its message (`runFrames_of_keepsSession`), so FINISH ends as HASH of it
(`exec_finish_pushBytes`); the bytes of a block are `byteOf_memRead`. -/
theorem sessionHashesItsMessage : Obligations.SessionHashesItsMessage := by
  refine ⟨fun s Fs hkv hFs => ?_, fun M t _ => ?_⟩
  · obtain ⟨opened, hinit, hph⟩ : ∃ t, exec .init s = .next t ∧ t.ph = .absorb := ⟨_, exec_init_ok hkv, rfl⟩
    obtain ⟨e, hrun⟩ := runFrames_of_keepsSession hFs hph
    refine ⟨_, ?_, (runFrames_singleton _ s).trans (exec_hash_ok hkv _)⟩
    calc runFrames (encode .init :: Fs ++ [encode .finish]) s
        = andThen (exec .init s) (runFrames (Fs ++ [encode .finish])) := rfl
      _ = exec .finish _ := by
        rw [hinit, andThen_next, runFrames_append, hrun, andThen_next, runFrames_singleton]
        exact answerFrame_cmd rfl _
      _ = exec (.hash (sessionMessage Fs)) s := exec_finish_pushBytes hkv hinit _ e
      _ = _ := exec_hash_ok hkv _
  · rw [byteOf_memRead M _ le_rfl (Nat.mod_lt t (by decide)), Nat.div_add_mod]

end Sys2Proof.Machine

/-! ## Family 30_encoding: the decoder (R75, R76, R79), the step (R71) and the codes of each opcode (R162) -/

namespace Sys2Proof.Machine

open Sys2Proof

/-! ### The decoder, opcode by opcode -/

/-- The opcode map has six commands (30_encoding.md R75); every other opcode is reserved (R76). -/
theorem reservedOpcode_iff (op : Byte) : reservedOpcode op = true ↔
    op ≠ 0x01#8 ∧ op ≠ 0x02#8 ∧ op ≠ 0x03#8 ∧ op ≠ 0x04#8 ∧ op ≠ 0x05#8 ∧ op ≠ 0x06#8 := by
  rw [reservedOpcode, decide_eq_true_eq]
  bv_omega

/-- A command's opcode or a reserved one: the split of every proof about an arbitrary opcode byte. -/
theorem opcode_cases (op : Byte) :
    op = 0x01 ∨ op = 0x02 ∨ op = 0x03 ∨ op = 0x04 ∨ op = 0x05 ∨ op = 0x06 ∨ reservedOpcode op = true := by
  rw [reservedOpcode, decide_eq_true_eq]
  bv_omega

theorem decodeFor_reserved {op : Byte} (h : reservedOpcode op = true) (max : Option Nat) (rest : List Byte) :
    decodeFor max (op :: rest) = .reject .eIllegal := by
  obtain ⟨h1, h2, h3, h4, h5, h6⟩ := (reservedOpcode_iff op).1 h
  simp only [decodeFor, if_neg h1, if_neg h2, if_neg h3, if_neg h4, if_neg h5, if_neg h6]

theorem decodeFor_cfg_length (max : Option Nat) {rest : List Byte} (h : rest.length ≠ 2) :
    decodeFor max (0x01 :: rest) = .reject .eFrame := by
  match rest, h with
  | [], _ | [_], _ | _ :: _ :: _ :: _, _ => rfl
  | [_, _], h => exact absurd rfl h

theorem decodeFor_key_length (max : Option Nat) {P : List Byte} (h : P.length ≠ 16) :
    decodeFor max (0x02 :: P) = .reject .eKeylen := by
  simp [decodeFor, h]

theorem decodeFor_init_length (max : Option Nat) {rest : List Byte} (h : rest.length ≠ 0) :
    decodeFor max (0x03 :: rest) = .reject .eFrame := by
  obtain ⟨b, bs, rfl⟩ := List.exists_cons_of_length_pos (Nat.pos_of_ne_zero h)
  rfl

theorem decodeFor_finish_length (max : Option Nat) {rest : List Byte} (h : rest.length ≠ 0) :
    decodeFor max (0x05 :: rest) = .reject .eFrame := by
  obtain ⟨b, bs, rfl⟩ := List.exists_cons_of_length_pos (Nat.pos_of_ne_zero h)
  rfl

/-- A well-formed command is read back from its frame. -/
theorem decodeFor_encode {max : Option Nat} {i : Instr} (h : wellFormedFor max i = true) :
    decodeFor max (encode i) = .cmd i := by
  cases i with
  | cfg c d => rfl
  | key secret =>
    obtain ⟨hlen, hfits⟩ : secret.length = 16 ∧ Config.fits max 16 = true := by simpa [wellFormedFor] using h
    simp [decodeFor, encode, opcodeOf, operandBytes, hlen, hfits]
  | init => rfl
  | update P =>
    have hfits : Config.fits max P.length = true := h
    simp [decodeFor, encode, opcodeOf, operandBytes, hfits]
  | finish => rfl
  | hash P =>
    have hfits : Config.fits max P.length = true := h
    simp [decodeFor, encode, opcodeOf, operandBytes, hfits]

/-- Each command has one frame. -/
theorem eq_encode_of_decodeFor {max : Option Nat} {F : Frame} {i : Instr} (h : decodeFor max F = .cmd i) :
    F = encode i := by
  cases F with
  | nil => cases h
  | cons op rest =>
    simp only [decodeFor] at h
    split_ifs at h with hop
    · subst hop
      split at h <;> cases h
      rfl
    all_goals
      cases h
      subst_vars
      rfl

theorem wellFormed_iff (i : Instr) : WellFormed i ↔ ∀ P, i = .key P → P.length = 16 := by
  cases i <;> simp [WellFormed, wellFormedFor, Config.maxPayload, Config.fits]

theorem decode_encode {i : Instr} (h : ∀ P, i = .key P → P.length = 16) : decode (encode i) = .cmd i :=
  decodeFor_encode ((wellFormed_iff i).2 h)

theorem decode_key {P : List Byte} (h : P.length = 16) : decode (0x02 :: P) = .cmd (.key P) :=
  decode_encode fun _ hi => Instr.key.inj hi ▸ h

/-- Settles O1: the KEY frame by `decode_key`, the illegal one by `decodeFor_reserved`, the others by evaluation. -/
theorem writtenFramesDecode : Obligations.WrittenFramesDecode :=
  ⟨rfl, decode_key rfl, rfl, rfl, rfl, rfl, decodeFor_reserved rfl _ _⟩

/-- Settles O2: each test is the lemma of its opcode above, and the inverse is `decode_encode`. -/
theorem decoderTestsEmptinessOpcodeLength : Obligations.DecoderTestsEmptinessOpcodeLength :=
  ⟨rfl,
    fun _ _ => rfl, fun _ => decodeFor_cfg_length _,
    fun _ => decode_key, fun _ => decodeFor_key_length _,
    rfl, fun _ => decodeFor_init_length _,
    fun _ => rfl,
    rfl, fun _ => decodeFor_finish_length _,
    fun _ => rfl,
    fun op rest h1 h2 h3 h4 h5 h6 =>
      decodeFor_reserved ((reservedOpcode_iff op).2 ⟨h1, h2, h3, h4, h5, h6⟩) _ rest,
    decodeFor_reserved rfl _ _, decodeFor_cfg_length _ (by decide), decodeFor_key_length _ (by decide),
    fun _ _ => rfl, fun _ => rfl, rfl, fun _ => rfl, rfl, fun _ => rfl,
    fun _ => decode_encode⟩

/-! ### Every frame has an answer, whose code is in the row of its opcode -/

/-- A command answers a next state with a code of its opcode's row (60_exceptions.md R162); the membership proof is the
code's place in that row. -/
theorem exec_err_mem (i : Instr) (s : State) :
    ∃ t, exec i s = .next t ∧ t.err ∈ commandResponses (opcodeOf i) := by
  cases i with
  | cfg c d =>
    by_cases hph : s.ph = .absorb
    · exact ⟨_, exec_cfg_phase hph c d, .tail _ (.tail _ (.tail _ (.head _)))⟩
    by_cases hz : c = 0 ∨ d = 0
    · exact ⟨_, exec_cfg_rounds hph hz, .tail _ (.tail _ (.head _))⟩
    · push Not at hz
      exact ⟨_, exec_cfg_ok hph hz.1 hz.2, .head _⟩
  | key secret =>
    by_cases hlen : secret.length = 16
    · exact ⟨_, exec_key_ok s hlen, .head _⟩
    · exact ⟨_, exec_key_length s hlen, .tail _ (.head _)⟩
  | init =>
    cases hkv : s.kv
    · exact ⟨_, exec_init_nokey hkv, .tail _ (.tail _ (.head _))⟩
    · exact ⟨_, exec_init_ok hkv, .head _⟩
  | update P =>
    by_cases hph : s.ph = .absorb
    · exact ⟨_, exec_update_ok hph P, .head _⟩
    · exact ⟨_, exec_update_phase hph P, .tail _ (.head _)⟩
  | finish =>
    by_cases hph : s.ph = .absorb
    · exact ⟨_, exec_finish_ok hph, .head _⟩
    · exact ⟨_, exec_finish_phase hph, .tail _ (.tail _ (.head _))⟩
  | hash P =>
    cases hkv : s.kv
    · exact ⟨_, exec_hash_nokey hkv P, .tail _ (.head _)⟩
    · exact ⟨_, exec_hash_ok hkv P, .head _⟩

theorem commandResponses_reserved {op : Byte} (h : reservedOpcode op = true) : commandResponses op = [.eIllegal] := by
  obtain ⟨h1, h2, h3, h4, h5, h6⟩ := (reservedOpcode_iff op).1 h
  rw [commandResponses, if_neg h1, if_neg h2, if_neg h3, if_neg h4, if_neg h5, if_neg h6]

/-- The code of a failed test of the decoder is in the opcode's row; with no payload bound, five tests can fail
(30_encoding.md R79). -/
theorem err_mem_of_decode_reject {op : Byte} {rest : List Byte} {e : Code} (h : decode (op :: rest) = .reject e) :
    e ∈ commandResponses op := by
  simp only [decode, decodeFor, Config.maxPayload, Config.fits] at h
  split_ifs at h
  · -- CFG
    subst_vars
    split at h <;> cases h
    exact .tail _ (.head _)
  · -- KEY
    subst_vars
    cases h
    exact .tail _ (.head _)
  · -- INIT
    subst_vars
    cases h
    exact .tail _ (.head _)
  · -- FINISH
    subst_vars
    cases h
    exact .tail _ (.head _)
  · -- a reserved opcode
    cases h
    rw [commandResponses_reserved ((reservedOpcode_iff op).2 (by tauto))]
    exact .head _

theorem answerFrame_err_mem (op : Byte) (rest : List Byte) (s : State) :
    ∃ t, answerFrame (op :: rest) s = .next t ∧ t.err ∈ commandResponses op := by
  rcases answerFrame_cases (op :: rest) s with ⟨i, hi, ha⟩ | ⟨e, he, ha⟩
  · obtain ⟨hop, -⟩ := List.cons.inj (eq_encode_of_decodeFor hi)
    rw [ha, hop]
    exact exec_err_mem i s
  · exact ⟨_, ha, err_mem_of_decode_reject he⟩

theorem exec_total (i : Instr) (s : State) : ∃ t, exec i s = .next t := by
  obtain ⟨t, ht, -⟩ := exec_err_mem i s
  exact ⟨t, ht⟩

theorem answerFrame_total (F : Frame) (s : State) : ∃ t, answerFrame F s = .next t := by
  rcases answerFrame_cases F s with ⟨i, -, ha⟩ | ⟨e, -, ha⟩
  · rw [ha]
    exact exec_total i s
  · exact ⟨_, ha⟩

theorem step_total (s : State) : ∃ t, step s = .next t := by
  rcases step_cases s with ⟨-, h⟩ | ⟨rest, -, h⟩ | ⟨F, rest, -, h⟩
  · exact ⟨s, h⟩
  · exact ⟨_, h⟩
  · rw [h]
    exact answerFrame_total F _

/-- Settles O8: a command answers a next state, so a frame does, so a step does. -/
theorem nothingStopsTheEngine : Obligations.NothingStopsTheEngine :=
  ⟨step_total, answerFrame_total, exec_total⟩

/-- The reserved opcodes are 00 and the 249 from 07 on. -/
theorem reservedOpcode_count :
    ((List.range 256).filter fun n => reservedOpcode (BitVec.ofNat 8 n)).length = 250 := by
  have hlow : ((List.range 7).filter fun n => reservedOpcode (BitVec.ofNat 8 n)) = [0] := by decide
  have hhigh : ∀ n ∈ (List.range 249).map (7 + ·), reservedOpcode (BitVec.ofNat 8 n) = true := by
    simp only [List.mem_map, List.mem_range, reservedOpcode, decide_eq_true_eq]
    rintro _ ⟨j, hj, rfl⟩
    bv_omega
  rw [show 256 = 7 + 249 from rfl, List.range_add, List.filter_append, hlow, List.filter_eq_self.2 hhigh]
  simp

/-- Settles O4: the decoder is `decodeFor_reserved`, the rejection `answerFrame_reject`, the empty UPDATE the payload
that pushes no byte. -/
theorem reservedOpcodesAreIllegal : Obligations.ReservedOpcodesAreIllegal := by
  refine ⟨fun op => ?_, reservedOpcode_count, rfl, rfl, fun op rest s hop => ?_, fun s hph => exec_update_ok hph [],
    answerFrame_total⟩
  · rw [reservedOpcode, decide_eq_true_eq]
    bv_omega
  · have hdecode : decode (op :: rest) = .reject .eIllegal := decodeFor_reserved hop _ rest
    exact ⟨hdecode, answerFrame_reject hdecode s⟩

/-! ### The step -/

theorem decode_tableFrame {nbits w : Nat} {i : Instr} (h : decodeTableWord nbits w = some i) :
    decode (tableFrame nbits w) = .cmd i := by
  cases hd : decode (tableFrame nbits w) with
  | cmd j =>
    simp only [decodeTableWord, hd] at h
    cases h
    rfl
  | reject e => simp [decodeTableWord, hd] at h

/-- The word's frame is taken again from the port it was put on. -/
theorem step_withFetchWord (s : State) (nbits w : Nat) :
    step (s.withFetchWord nbits w) = answerFrame (tableFrame nbits w) s :=
  step_event (s := s.withFetchWord nbits w) (e := .frame (tableFrame nbits w)) (rest := s.port) rfl

/-- Settles O7: a delivered event is `step_event`, an empty port `step_idle`, a table word `step_withFetchWord`; the
frame's answer is then the decoder's choice. -/
theorem stepRunsTheDecodedFrame : Obligations.StepRunsTheDecodedFrame :=
  ⟨fun _ _ _ _ hport hF => (step_event hport).trans (answerFrame_cmd hF _),
    fun _ _ _ _ hport hF => (step_event hport).trans (answerFrame_reject hF _),
    fun _ _ hport => step_event hport,
    fun _ hport => step_idle hport,
    fun s nbits w _ hw => (step_withFetchWord s nbits w).trans (answerFrame_cmd (decode_tableFrame hw) s)⟩

/-! ### The table of codes, both ways (60_exceptions.md R162) -/

/-- Some frame with the opcode is answered with the code in some state. -/
def EndsWith (op : Byte) (e : Code) : Prop :=
  ∃ (rest : List Byte) (s t : State), answerFrame (op :: rest) s = .next t ∧ t.err = e

theorem mem_of_endsWith {op : Byte} {e : Code} (h : EndsWith op e) : e ∈ commandResponses op := by
  obtain ⟨rest, s, t, ht, rfl⟩ := h
  obtain ⟨u, hu, hmem⟩ := answerFrame_err_mem op rest s
  cases ht.symm.trans hu
  exact hmem

/-- A frame and a state for each entry of the table; after reset no key is loaded and no session is open. -/
theorem endsWith_of_mem (op : Byte) : ∀ e ∈ commandResponses op, EndsWith op e := by
  rcases opcode_cases op with rfl | rfl | rfl | rfl | rfl | rfl | hop
  · show ∀ e ∈ [Code.ok, .eFrame, .eRounds, .ePhase], EndsWith 0x01 e
    simp only [List.forall_mem_cons]
    exact ⟨⟨[2, 4], .reset, _, rfl, rfl⟩, ⟨[], .reset, _, rfl, rfl⟩, ⟨[0, 4], .reset, _, rfl, rfl⟩,
      ⟨[2, 4], { State.reset with ph := .absorb }, _, rfl, rfl⟩, List.forall_mem_nil _⟩
  · show ∀ e ∈ [Code.ok, .eKeylen], EndsWith 0x02 e
    simp only [List.forall_mem_cons]
    exact ⟨⟨List.replicate 16 0, .reset, _, rfl, rfl⟩, ⟨[], .reset, _, rfl, rfl⟩, List.forall_mem_nil _⟩
  · show ∀ e ∈ [Code.ok, .eFrame, .eNokey], EndsWith 0x03 e
    simp only [List.forall_mem_cons]
    exact ⟨⟨[], { State.reset with kv := true }, _, rfl, rfl⟩, ⟨[0], .reset, _, rfl, rfl⟩,
      ⟨[], .reset, _, rfl, rfl⟩, List.forall_mem_nil _⟩
  · show ∀ e ∈ [Code.ok, .ePhase], EndsWith 0x04 e
    simp only [List.forall_mem_cons]
    exact ⟨⟨[], { State.reset with ph := .absorb }, _, rfl, rfl⟩, ⟨[], .reset, _, rfl, rfl⟩,
      List.forall_mem_nil _⟩
  · show ∀ e ∈ [Code.ok, .eFrame, .ePhase], EndsWith 0x05 e
    simp only [List.forall_mem_cons]
    exact ⟨⟨[], { State.reset with ph := .absorb }, _, rfl, rfl⟩, ⟨[0], .reset, _, rfl, rfl⟩,
      ⟨[], .reset, _, rfl, rfl⟩, List.forall_mem_nil _⟩
  · show ∀ e ∈ [Code.ok, .eNokey], EndsWith 0x06 e
    simp only [List.forall_mem_cons]
    exact ⟨⟨[], { State.reset with kv := true }, _, rfl, rfl⟩, ⟨[], .reset, _, rfl, rfl⟩,
      List.forall_mem_nil _⟩
  · rw [commandResponses_reserved hop]
    exact List.forall_mem_singleton.2 ⟨[], .reset, _, answerFrame_reject (decodeFor_reserved hop _ []) _, rfl⟩

theorem eIllegal_mem_iff (op : Byte) : Code.eIllegal ∈ commandResponses op ↔ reservedOpcode op = true := by
  constructor
  · intro h
    rcases opcode_cases op with rfl | rfl | rfl | rfl | rfl | rfl | hop
    case inr.inr.inr.inr.inr.inr => exact hop
    all_goals exact absurd h (by decide)
  · intro hop
    rw [commandResponses_reserved hop]
    exact .head _

/-- Settles O41: the row holds no code too many by `mem_of_endsWith`, and none too few by `endsWith_of_mem`. -/
theorem commandsEndWithTheirCodes : Obligations.CommandsEndWithTheirCodes :=
  ⟨fun op e => ⟨endsWith_of_mem op e, mem_of_endsWith⟩, eIllegal_mem_iff, answerFrame_reject rfl⟩

end Sys2Proof.Machine

/-! ## Family 40_config_key_init: the set-up commands (R91, R93, R94, R98), the session HASH abbreviates (R141), what each
command writes (R24) and does not read (R140) -/

namespace Sys2Proof.Machine

open Sys2Proof

/-! ### The 16-byte Secrets and the pairs of key lanes (40_config_key_init.md R93) -/

/-- The eight bytes of an assembled word are the bytes it was assembled from. -/
theorem bytes_le {bs : List Byte} (h : bs.length = 8) : (List.range 8).map (byteOf (le bs)) = bs := by
  refine List.ext_getElem (by simp [h]) fun j _ hj => ?_
  rw [List.getElem_map, List.getElem_range, byteOf_le h.le, List.getD_eq_getElem bs 0 hj]

/-- The inverse of `KeyDerive`: the bytes of `k0`, then those of `k1`. -/
def secretOf (k : KeyLanes) : List Byte :=
  (List.range 8).map (byteOf k.k0) ++ (List.range 8).map (byteOf k.k1)

@[simp] theorem secretOf_length (k : KeyLanes) : (secretOf k).length = 16 := by simp [secretOf]

theorem keyDerive_append {A B : List Byte} (hA : A.length = 8) (hB : B.length = 8) :
    keyDerive (A ++ B) = ⟨le A, le B⟩ := by
  simp [keyDerive, memRead, ← hA, hA.trans hB.symm]

/-- A 16-byte Secret in its two halves. -/
theorem keyDerive_halves {P : List Byte} (h : P.length = 16) : keyDerive P = ⟨le (P.take 8), le (P.drop 8)⟩ := by
  rw [← keyDerive_append (by simp [h]) (by simp [h]), List.take_append_drop]

theorem keyDerive_secretOf (k : KeyLanes) : keyDerive (secretOf k) = k := by
  rw [secretOf, keyDerive_append (by simp) (by simp), le_bytes, le_bytes]

theorem secretOf_keyDerive {P : List Byte} (h : P.length = 16) : secretOf (keyDerive P) = P := by
  rw [keyDerive_halves h, secretOf, bytes_le (by simp [h]), bytes_le (by simp [h]), List.take_append_drop]

/-- Settles O13: `secretOf` is a two-sided inverse of `keyDerive`, and the bytes are those of two payload reads. -/
theorem keyDeriveIsABijection : Obligations.KeyDeriveIsABijection := by
  refine ⟨fun _ => keyDerive_halves, fun P _ j hj => ⟨?_, byteOf_memRead P 8 le_rfl hj⟩,
    fun k => ⟨secretOf k, secretOf_length k, keyDerive_secretOf k, fun Q hQ hk => ?_⟩, by decide⟩
  · rw [keyDerive, byteOf_memRead P 0 le_rfl hj, Nat.zero_add]
  · rw [← hk, secretOf_keyDerive hQ]

/-! ### What a run keeps -/

/-- A run keeps what a rejection keeps and what every command among its frames keeps. -/
theorem runFrames_keeps {I : State → Prop} (hreject : ∀ s e, I s → I (s.reject e)) {Fs : List Frame}
    (hexec : ∀ F ∈ Fs, ∀ i s t, decode F = .cmd i → I s → exec i s = .next t → I t)
    {s t : State} (hs : I s) (h : runFrames Fs s = .next t) : I t := by
  induction Fs generalizing s with
  | nil =>
    cases h
    exact hs
  | cons F Fs ih =>
    rw [List.forall_mem_cons] at hexec
    obtain ⟨hF, hFs⟩ := hexec
    obtain ⟨u, hu⟩ := answerFrame_total F s
    rw [runFrames_cons, hu, andThen_next] at h
    refine ih hFs ?_ h
    rcases answerFrame_cases F s with ⟨i, hi, ha⟩ | ⟨e, -, ha⟩
    · exact hF i s u hi hs (ha.symm.trans hu)
    · cases ha.symm.trans hu
      exact hreject s e hs

/-- Only INIT opens a session. -/
theorem exec_ph_ne_absorb {i : Instr} (hi : i ≠ .init) {s t : State} (hs : s.ph ≠ .absorb)
    (h : exec i s = .next t) : t.ph ≠ .absorb := by
  rcases exec_cases i s with ⟨e, -, he⟩ | ⟨c, d, -, -, -, -, he⟩ | ⟨secret, -, -, he⟩ | ⟨hinit, -, -⟩ |
    ⟨P, -, hph, -⟩ | ⟨-, hph, -⟩ | ⟨P, -, -, he⟩
  · cases he.symm.trans h; exact hs
  · cases he.symm.trans h; exact hs
  · cases he.symm.trans h; nofun
  · exact absurd hinit hi
  · exact absurd hph hs
  · exact absurd hph hs
  · cases he.symm.trans h; nofun

/-- No session is open after frames without an INIT when none was open before them. -/
theorem runFrames_ph_ne_absorb {Fs : List Frame} (hFs : ∀ F ∈ Fs, decode F ≠ .cmd .init) {s t : State}
    (hs : s.ph ≠ .absorb) (h : runFrames Fs s = .next t) : t.ph ≠ .absorb :=
  runFrames_keeps (I := fun s => s.ph ≠ .absorb) (fun _ _ hs => hs)
    (fun F hF _ _ _ hi => exec_ph_ne_absorb fun hinit => hFs F hF (hinit ▸ hi)) hs h

theorem pushBytes_out (s : State) (P : List Byte) : (pushBytes s P).out = s.out := by
  obtain ⟨v, pend, fill, h⟩ := pushBytes_frame P s
  rw [h]

/-- Only FINISH and HASH write `OUT`. -/
theorem exec_out {i : Instr} (hfinish : i ≠ .finish) (hhash : ∀ P, i ≠ .hash P) {s t : State}
    (h : exec i s = .next t) : t.out = s.out := by
  rcases exec_cases i s with ⟨e, -, he⟩ | ⟨c, d, -, -, -, -, he⟩ | ⟨secret, -, -, he⟩ | ⟨-, -, he⟩ |
    ⟨P, -, -, he⟩ | ⟨hi, -, -⟩ | ⟨P, hi, -, -⟩
  · cases he.symm.trans h; rfl
  · cases he.symm.trans h; rfl
  · cases he.symm.trans h; rfl
  · cases he.symm.trans h; rfl
  · cases he.symm.trans h; exact pushBytes_out s P
  · exact absurd hi hfinish
  · exact absurd hi (hhash P)

theorem runFrames_out {Fs : List Frame}
    (hFs : ∀ F ∈ Fs, decode F ≠ .cmd .finish ∧ ∀ P, decode F ≠ .cmd (.hash P)) {s t : State}
    (h : runFrames Fs s = .next t) : t.out = s.out := by
  refine runFrames_keeps (I := fun u => u.out = s.out) (fun _ _ hu => hu) (fun F hF i u w hi hu hw => ?_) rfl h
  obtain ⟨hfinish, hhash⟩ := hFs F hF
  exact (exec_out (fun hi' => hfinish (hi' ▸ hi)) (fun P hi' => hhash P (hi' ▸ hi)) hw).trans hu

/-! ### CFG, KEY and INIT whole -/

/-- Settles O12: the decoder by `decodeFor_cfg_length`, the three answers by the laws of CFG in the order of its tests. -/
theorem cfgSetsTheRoundCounts : Obligations.CfgSetsTheRoundCounts := by
  refine ⟨fun _ _ => ⟨rfl, rfl⟩, fun rest h => decodeFor_cfg_length _ fun hrest => h ?_,
    fun c d _ hph => exec_cfg_phase hph c d, fun _ _ _ hph hz => exec_cfg_rounds hph hz,
    fun _ _ _ hph hc hd => exec_cfg_ok hph hc hd, ?_⟩
  · rw [List.length_cons, hrest]
  · exact exec_cfg_ok (s := State.reset) (c := 1) (d := 3) (by decide) (by decide) (by decide)

/-- Settles O14: after KEY no session is open, and frames without an INIT open none (`runFrames_ph_ne_absorb`). -/
theorem keyLoadsTheKeyLanes : Obligations.KeyLoadsTheKeyLanes := by
  refine ⟨fun _ hP => ⟨rfl, decode_key hP⟩, fun _ s hP => exec_key_ok s hP,
    fun _ s hP => answerFrame_reject (decodeFor_key_length _ hP) s, fun P s t u Fs hP hkey hFs hrun => ?_, ?_⟩
  · cases (exec_key_ok s hP).symm.trans hkey
    have hu : u.ph ≠ .absorb := runFrames_ph_ne_absorb hFs (by nofun) hrun
    exact ⟨exec_update_phase hu, exec_finish_phase hu⟩
  · obtain ⟨-, -, -, hexample⟩ := keyDeriveIsABijection
    rw [answerFrame_cmd (decode_key rfl), exec_key_ok _ rfl, hexample]

/-- Settles O15: INIT keeps `OUT`, and frames without FINISH and HASH keep it (`runFrames_out`). -/
theorem initOpensASession : Obligations.InitOpensASession := by
  refine ⟨rfl, rfl, fun rest h => decodeFor_init_length _ fun hrest => h ?_, fun _ => exec_init_nokey, fun _ => rfl,
    fun _ => exec_init_ok, fun s t u Fs hinit hFs hrun => ?_, fun s hkv hk => ?_⟩
  · rw [List.length_cons, hrest]
  · calc u.out = t.out := runFrames_out hFs hrun
      _ = s.out := exec_out (by nofun) (by nofun) hinit
  · have hlanes : initLanes s.k = ⟨0x7469686173716475, 0x6b617f6d656e6665, 0x6b7f62616d677361, 0x7b6b696e727e6c7b⟩ := by
      rw [hk]
      decide
    rw [exec_init_ok hkv, hlanes]

/-! ### HASH and the session it abbreviates (43_finalization.md R141) -/

/-- Settles O16: the session of no bytes is the empty case of `exec_finish_pushBytes`. -/
theorem initFinishHashesTheEmptyMessage : Obligations.InitFinishHashesTheEmptyMessage := by
  intro s hkv
  have hhash := exec_hash_ok hkv []
  have hinit := exec_init_ok hkv
  have hlane : finalLane 0 0 = 0 := by decide
  exact ⟨_, _, hinit, hlane, (exec_finish_pushBytes hkv hinit [] .ok).trans hhash, rfl, hhash⟩

/-- The message of a session of UPDATE frames is their payloads joined. -/
theorem sessionMessage_updates (chunks : List (List Byte)) :
    sessionMessage (chunks.map fun Q => encode (.update Q)) = chunks.flatten := by
  have hpayload (Q : List Byte) : sessionPayload (encode (.update Q)) = Q := rfl
  simp only [sessionMessage, List.flatMap_map, hpayload, List.flatMap_id']

theorem keepsSession_update (Q : List Byte) : keepsSession (encode (.update Q)) = true := rfl

/-- A session of UPDATE frames ends as HASH of their payloads joined, from `sessionHashesItsMessage`. -/
theorem runFrames_updates {s : State} (hkv : s.kv = true) (chunks : List (List Byte)) :
    runFrames (encode .init :: chunks.map (fun Q => encode (.update Q)) ++ [encode .finish]) s =
      runFrames [encode (.hash chunks.flatten)] s := by
  obtain ⟨t, hsession, hhash⟩ := sessionHashesItsMessage.1 s (chunks.map fun Q => encode (.update Q)) hkv
    (List.forall_mem_map.2 fun Q _ => keepsSession_update Q)
  rw [hsession, ← hhash, sessionMessage_updates]

/-- Settles O34: `runFrames_updates`, of which one UPDATE of the whole payload is a case. -/
theorem hashEqualsTheStreamingSequence : Obligations.HashEqualsTheStreamingSequence := by
  intro s P hkv
  have hhash := (runFrames_singleton (encode (.hash P)) s).trans (exec_hash_ok hkv P)
  refine ⟨_, hhash, ?_, fun chunks h => ?_⟩
  · exact (runFrames_updates hkv [P]).trans (by rwa [List.flatten_singleton])
  · exact (runFrames_updates hkv chunks).trans (by rwa [h])

/-! ### What each command writes (10_state.md R24) -/

theorem exec_cfg_frame {c d : Byte} {s t : State} (h : exec (.cfg c d) s = .next t) :
    t = { s with rcC := t.rcC, rcD := t.rcD, err := t.err } := by
  by_cases hph : s.ph = .absorb
  · cases (exec_cfg_phase hph c d).symm.trans h; rfl
  by_cases hz : c = 0 ∨ d = 0
  · cases (exec_cfg_rounds hph hz).symm.trans h; rfl
  · push Not at hz
    cases (exec_cfg_ok hph hz.1 hz.2).symm.trans h; rfl

theorem exec_key_frame {P : List Byte} {s t : State} (h : exec (.key P) s = .next t) :
    t = { s with k := t.k, kv := t.kv, ph := t.ph, err := t.err } ∧ (s.kv = true → t.kv = true) := by
  by_cases hP : P.length = 16
  · cases (exec_key_ok s hP).symm.trans h; exact ⟨rfl, fun _ => rfl⟩
  · cases (exec_key_length s hP).symm.trans h; exact ⟨rfl, id⟩

theorem exec_init_frame {s t : State} (h : exec .init s = .next t) :
    t = { s with v := t.v, pend := t.pend, fill := t.fill, len := t.len, ph := t.ph, err := t.err } := by
  rcases Bool.eq_false_or_eq_true s.kv with hkv | hkv
  · cases (exec_init_ok hkv).symm.trans h; rfl
  · cases (exec_init_nokey hkv).symm.trans h; rfl

/-- The lanes change only when a block completes (42_absorption.md R125). -/
theorem pushBytes_v_of_lt {P : List Byte} {s : State} (h : s.fill.toNat + P.length < 8) :
    (pushBytes s P).v = s.v := by
  induction P generalizing s with
  | nil => rfl
  | cons b P ih =>
    rw [List.length_cons] at h
    have hfill : (s.fill + 1).toNat = s.fill.toNat + 1 := by bv_omega
    rw [pushBytes_cons, pushByte_of_lt (by omega), ih (by simp only [hfill]; omega)]

theorem exec_update_frame {P : List Byte} {s t : State} (h : exec (.update P) s = .next t) :
    t = { s with v := t.v, pend := t.pend, fill := t.fill, len := t.len, err := t.err } ∧
      (s.fill.toNat + P.length < 8 → t.v = s.v) := by
  by_cases hph : s.ph = .absorb
  · cases (exec_update_ok hph P).symm.trans h
    refine ⟨?_, pushBytes_v_of_lt⟩
    obtain ⟨v, pend, fill, hpush⟩ := pushBytes_frame P s
    rw [hpush]
    rfl
  · cases (exec_update_phase hph P).symm.trans h; exact ⟨rfl, fun _ => rfl⟩

theorem exec_finish_frame {s t : State} (h : exec .finish s = .next t) :
    t = { s with v := t.v, out := t.out, ph := t.ph, err := t.err } := by
  by_cases hph : s.ph = .absorb
  · cases (exec_finish_ok hph).symm.trans h; rfl
  · cases (exec_finish_phase hph).symm.trans h; rfl

theorem exec_hash_frame {P : List Byte} {s t : State} (h : exec (.hash P) s = .next t) :
    t = { s with v := t.v, pend := t.pend, fill := t.fill, len := t.len, out := t.out, ph := t.ph, err := t.err } := by
  rcases Bool.eq_false_or_eq_true s.kv with hkv | hkv
  · cases (exec_hash_ok hkv P).symm.trans h; rfl
  · cases (exec_hash_nokey hkv P).symm.trans h; rfl

/-- Settles O46: one frame lemma for each row of the matrix. -/
theorem commandsWriteOnlyTheirRegisters : Obligations.CommandsWriteOnlyTheirRegisters :=
  ⟨fun _ _ _ _ => exec_cfg_frame, fun _ _ _ => exec_key_frame, fun _ _ => exec_init_frame,
    fun _ _ _ => exec_update_frame, fun _ _ => exec_finish_frame, fun _ _ _ => exec_hash_frame⟩

/-! ### What INIT and HASH do not read (40_config_key_init.md R98(c), 43_finalization.md R140(b)) -/

/-- A command's answer over another port is its answer, over that port: no test reads the port and no branch writes it. -/
theorem exec_port (i : Instr) (s : State) (p : List PortEvent) :
    exec i { s with port := p } = andThen (exec i s) fun t => .next { t with port := p } := by
  cases i with
  | cfg c d => simp only [exec, execCfg]; split_ifs <;> rfl
  | key P => simp only [exec, execKey]; split_ifs <;> rfl
  | init => simp only [exec, execInit]; split_ifs <;> rfl
  | update P => simp only [exec, execUpdate, pushBytes_port]; split_ifs <;> rfl
  | finish => simp only [exec, execFinish]; split_ifs <;> rfl
  | hash P => simp only [exec, execHash]; split_ifs <;> rfl

/-- INIT writes the same session registers over any session under the same key. -/
theorem exec_init_congr {s u t : State} (hs : s.kv = true) (hu : u.kv = true) (hk : s.k = u.k)
    (h : exec .init s = .next t) :
    exec .init u = .next { u with
      v := t.v, pend := t.pend, fill := t.fill, len := t.len, ph := t.ph, err := t.err } := by
  cases (exec_init_ok hs).symm.trans h
  rw [exec_init_ok hu, hk]

/-- HASH leaves the same registers over any session under the same key and counts. -/
theorem exec_hash_congr {P : List Byte} {s u t : State} (hs : s.kv = true) (hu : u.kv = true) (hk : s.k = u.k)
    (hc : s.rcC = u.rcC) (hd : s.rcD = u.rcD) (h : exec (.hash P) s = .next t) :
    exec (.hash P) u = .next { t with port := u.port } := by
  cases (exec_hash_ok hs P).symm.trans h
  rw [exec_hash_ok hu, hk, hc, hd, hs, hu]

/-- Settles O49: HASH leaves the two machines alike up to their ports (`exec_hash_congr`), and no command reads a port
(`exec_port`). -/
theorem freshStartIgnoresTheOldSession : Obligations.FreshStartIgnoresTheOldSession := by
  refine ⟨fun _ _ _ => exec_init_congr, fun P s u t w hs hu hk hc hd ht hw => ?_⟩
  cases (exec_hash_congr hs hu hk hc hd ht).symm.trans hw
  refine ⟨rfl, fun i x y hx hy => ?_⟩
  rw [exec_port, hx, andThen_next] at hy
  cases hy
  rfl

end Sys2Proof.Machine

/-! ## Family 41_round: the round as its operations (R111) and in single-assignment form (R112) -/

namespace Sys2Proof.Machine

open Sys2Proof

/-- The round's lane equations are the operations of `roundOps` run in order: both compute lane by lane. -/
theorem sipRound_eq_foldl_roundOps (v : Lanes) : sipRound v = roundOps.foldl applyRoundOp v := rfl

/-- Settles O18: the round runs `roundOps` (`sipRound_eq_foldl_roundOps`); the rest counts that closed list. -/
theorem roundIsItsFourteenOperations : Obligations.RoundIsItsFourteenOperations :=
  ⟨sipRound_eq_foldl_roundOps, rfl, by decide, by decide, by decide, by decide⟩

/-- Settles O19: each name stands for the lane after one operation, so replacing the names by their values leaves R111's
sequence. -/
theorem roundInSingleAssignmentForm : Obligations.RoundInSingleAssignmentForm := by
  intro a b c d a1 b1 b2 b3 b4 a2 a3 c1 c2 c3 d1 d2 d3 d4 ha1 hc1 hb1 hd1 hb2 hd2 ha2 hc2 ha3 hb3 hd3 hb4 hd4 hc3
  subst ha1 hc1 hb1 hd1 hb2 hd2 ha2 hc2 ha3 hb3 hd3 hb4 hd4 hc3
  rfl

end Sys2Proof.Machine

/-! ## Family 42_absorption: the block (R121), `PushByte` (R124), UPDATE (R125, R126), the two paths (R128, R129), and
the rounds each command applies (R194) -/

namespace Sys2Proof.Machine

open Sys2Proof

/-! ### The block -/

/-- Settles O27: both sides of the first clause are the two XORs around the rounds; the examples are evaluated. -/
theorem absorbBlockInjectsAroundTheRounds : Obligations.AbsorbBlockInjectsAroundTheRounds :=
  ⟨fun _ _ _ => rfl, by decide, by decide⟩

/-! ### The bytes of the tail and of the pending lane -/

/-- The bytes after the last block boundary run to the payload's end. -/
theorem tail_eq_le_drop (P : List Byte) : tail P = le (P.drop (8 * (P.length / 8))) := by
  rw [tail, memRead, List.take_of_length_le (by rw [List.length_drop]; omega)]

/-- Settles O24: the tail is a payload read of width `n mod 8`, so its bytes are `byteOf_memRead` and its value is below
`2^(8 * (n mod 8))` by `memRead_lt`. -/
theorem tailHoldsTheLeftoverBytes : Obligations.TailHoldsTheLeftoverBytes := by
  intro P
  have hr : P.length % 8 ≤ 8 := by omega
  refine ⟨rfl, tail_eq_le_drop P, fun h0 => ?_, fun j hj => byteOf_memRead P _ hr hj, fun j hj _ => ?_⟩
  · rw [tail, h0, memRead, List.take_zero, le_nil]
  · exact byteOf_eq_zero_of_lt ((memRead_lt P _ hr).trans_le (Nat.pow_le_pow_right (by decide) (by omega)))

/-- A byte ORed into a clean pending lane comes after the bytes buffered there. -/
theorem pend_or_eq_le {pend : Word} {fill : BitVec 3} (hclean : pend.toNat < 2 ^ (8 * fill.toNat)) (b : Byte) :
    pend ||| (zext64 b <<< (8 * fill.toNat)) = le (bufferedBytes pend fill ++ [b]) := by
  have hf : (bufferedBytes pend fill).length < 8 := by simpa using fill.isLt
  rw [le_concat hf, le_bufferedBytes hclean, bufferedBytes_length]

/-- `LEN` advances modulo 256. -/
theorem len_add_ofNat (len : Byte) (n : Nat) : len + BitVec.ofNat 8 n = BitVec.ofNat 8 ((len.toNat + n) % 256) := by
  apply BitVec.eq_of_toNat_eq
  simp

theorem ofNat_mod_eight (n : Nat) : BitVec.ofNat 3 n = BitVec.ofNat 3 (n % 8) := by
  apply BitVec.eq_of_toNat_eq
  simp

/-- The byte becomes byte number `FILL`, and no other byte changes (42_absorption.md R124). -/
theorem byteOf_pend_or {pend : Word} {fill : BitVec 3} (hclean : pend.toNat < 2 ^ (8 * fill.toNat)) (b : Byte)
    (j : Nat) : byteOf (pend ||| (zext64 b <<< (8 * fill.toNat))) j = if j = fill.toNat then b else byteOf pend j := by
  have hf := fill.isLt
  have hlen := bufferedBytes_length pend fill
  have hbuf : byteOf pend j = (bufferedBytes pend fill).getD j 0 := by
    rw [← byteOf_le (by omega), le_bufferedBytes hclean]
  rw [pend_or_eq_le hclean, byteOf_le (by simp; omega), hbuf]
  rcases lt_trichotomy j fill.toNat with hj | rfl | hj
  · rw [if_neg hj.ne, List.getD_append _ _ _ _ (by omega)]
  · rw [if_pos rfl, List.getD_append_right _ _ _ _ (by omega), hlen, Nat.sub_self, List.getD_cons_zero]
  · rw [if_neg hj.ne', List.getD_eq_default _ _ (by simp; omega), List.getD_eq_default _ _ (by omega)]

/-- Settles O28: the two cases of `PushByte` are its laws, the bytes of the lane are `byteOf_pend_or`, and eight bytes are
`pushBytes_block`. -/
theorem pushByteBuffersOrAbsorbs : Obligations.PushByteBuffersOrAbsorbs := by
  refine ⟨fun s b hf => ?_, fun s b hf => ?_, fun s b hf hclean => ?_, fun s bs hbs hpend hfill => ?_⟩
  · rw [← len_add_ofNat, pushByte_of_lt hf]
    rfl
  · rw [← len_add_ofNat, pushByte_of_eq hf]
    rfl
  · rw [pushByte_of_lt hf]
    exact ⟨(byteOf_pend_or hclean b _).trans (if_pos rfl), fun j _ hj => (byteOf_pend_or hclean b j).trans (if_neg hj)⟩
  · rw [← len_add_ofNat, pushBytes_block hfill hpend hbs]
    rfl

/-! ### The two paths -/

/-- Settles O31: `pushBytes_eq_batchAbsorb`, its counts written as remainders. -/
theorem incrementalPathEqualsBatchPath : Obligations.IncrementalPathEqualsBatchPath := by
  intro s P _ hfill hpend hlen
  have hlenP : s.len + BitVec.ofNat 8 P.length = BitVec.ofNat 8 (P.length % 256) := by
    rw [len_add_ofNat, hlen]
    simp
  rw [pushBytes_eq_batchAbsorb hfill hpend, ofNat_mod_eight, hlenP]

/-- The state before the buffered bytes arrived, as far as absorption can tell. -/
def State.unbuffered (s : State) : State :=
  { s with pend := 0, fill := 0, len := s.len - BitVec.ofNat 8 s.fill.toNat }

/-- A clean pending lane is what its bytes leave when pushed into an empty one. -/
theorem pushBytes_unbuffered {s : State} (hclean : s.pend.toNat < 2 ^ (8 * s.fill.toNat)) :
    pushBytes s.unbuffered (bufferedBytes s.pend s.fill) = s := by
  have hf := s.fill.isLt
  have hlen := bufferedBytes_length s.pend s.fill
  rw [pushBytes_of_length_lt (s := s.unbuffered) rfl rfl (by omega), le_bufferedBytes hclean, hlen]
  simp [State.unbuffered]

/-- `PushByte` over a payload from any clean state is block absorption of the buffered bytes followed by the payload
(42_absorption.md R125). -/
theorem pushBytes_eq_batchAbsorb_buffered {s : State} (hclean : s.pend.toNat < 2 ^ (8 * s.fill.toNat)) (P : List Byte) :
    pushBytes s P = { s with
      v := batchAbsorb s.v (bufferedBytes s.pend s.fill ++ P) s.rcC.toNat
      pend := tail (bufferedBytes s.pend s.fill ++ P)
      fill := BitVec.ofNat 3 ((s.fill.toNat + P.length) % 8)
      len := BitVec.ofNat 8 ((s.len.toNat + P.length) % 256) } := by
  have hlen : s.len - BitVec.ofNat 8 s.fill.toNat + BitVec.ofNat 8 (s.fill.toNat + P.length)
      = s.len + BitVec.ofNat 8 P.length := by
    rw [BitVec.ofNat_add, ← BitVec.add_assoc, BitVec.sub_add_cancel]
  conv_lhs => rw [← pushBytes_unbuffered hclean, ← pushBytes_append,
    pushBytes_eq_batchAbsorb (s := s.unbuffered) rfl rfl]
  rw [List.length_append, bufferedBytes_length, ← ofNat_mod_eight, ← len_add_ofNat, ← hlen]
  rfl

/-! ### UPDATE -/

/-- Accepting a frame before more bytes arrive changes nothing else. -/
theorem pushBytes_accept (s : State) (P : List Byte) : (pushBytes s.accept P).accept = (pushBytes s P).accept := by
  rw [State.accept, State.accept, pushBytes_err]
  rfl

/-- UPDATE after UPDATE is UPDATE of the joined payloads (42_absorption.md R126). -/
theorem exec_update_update {s : State} (hph : s.ph = .absorb) (A B : List Byte) :
    andThen (exec (.update A) s) (exec (.update B)) = exec (.update (A ++ B)) s := by
  have hphA : (pushBytes s A).accept.ph = .absorb := (pushBytes_ph s A).trans hph
  rw [exec_update_ok hph, andThen_next, exec_update_ok hphA, pushBytes_accept, ← pushBytes_append, exec_update_ok hph]

/-- One or more UPDATE frames are one UPDATE of their payloads joined. -/
theorem runFrames_update_cons (P : List Byte) (chunks : List (List Byte)) {s : State} (hph : s.ph = .absorb) :
    runFrames ((P :: chunks).map fun Q => encode (.update Q)) s = exec (.update (P :: chunks).flatten) s := by
  induction chunks generalizing P s with
  | nil => rw [List.flatten_singleton]; exact runFrames_singleton _ s
  | cons Q chunks ih =>
    have hphP : (pushBytes s P).accept.ph = .absorb := (pushBytes_ph s P).trans hph
    calc runFrames ((P :: Q :: chunks).map fun Q => encode (.update Q)) s
        = andThen (exec (.update P) s) (runFrames ((Q :: chunks).map fun Q => encode (.update Q))) := rfl
      _ = andThen (exec (.update P) s) (exec (.update (Q :: chunks).flatten)) := by
        rw [exec_update_ok hph, andThen_next, andThen_next, ih Q hphP]
      _ = exec (.update (P :: Q :: chunks).flatten) s := exec_update_update hph P _

/-- Settles O30: both clauses are answered as the one UPDATE of the joined payloads, by `exec_update_update` and
`runFrames_update_cons`. -/
theorem chunkingDoesNotMatter : Obligations.ChunkingDoesNotMatter := by
  refine ⟨fun A B s hph => ?_, fun chunks s hph hne => ?_⟩
  · exact ⟨_, (exec_update_update hph A B).trans (exec_update_ok hph _), exec_update_ok hph _, rfl⟩
  · obtain ⟨P, Ps, rfl⟩ := List.exists_cons_of_ne_nil hne
    exact ⟨_, (runFrames_update_cons P Ps hph).trans (exec_update_ok hph _), exec_update_ok hph _, rfl⟩

/-- Settles O29: the closed form is `pushBytes_eq_batchAbsorb_buffered`; the example's two frames are one UPDATE of eleven
bytes (`runFrames_update_cons`) from the state INIT leaves. -/
theorem updateAbsorbsThePayload : Obligations.UpdateAbsorbsThePayload := by
  refine ⟨fun _ => ⟨rfl, rfl⟩, fun P _ hph => exec_update_phase hph P, fun P _ hph => exec_update_ok hph P,
    fun P s hph hclean => ⟨?_, by simp⟩, fun _ hph => exec_update_ok hph [], fun P s t _ hlt h => ?_,
    fun s hph hpend hfill hlen hc hv => ⟨?_, ?_⟩⟩
  · rw [exec_update_ok hph, pushBytes_eq_batchAbsorb_buffered hclean]
    rfl
  · obtain ⟨-, hlanes⟩ := exec_update_frame h
    exact hlanes hlt
  · have htail : tail [0x00, 0x01, 0x02] = 0x020100 := by decide
    refine (exec_update_ok hph [0x00, 0x01, 0x02]).trans ?_
    rw [incrementalPathEqualsBatchPath s _ hph hfill hpend hlen, batchAbsorb_short _ (by decide), htail]
    rfl
  · have hlanes : batchAbsorb s.v [0x00, 0x01, 0x02, 0x03, 0x04, 0x05, 0x06, 0x07, 0x08, 0x09, 0x0a] s.rcC.toNat
        = ⟨0x4a017198de0a59e0, 0x0d52f6f62a4f59a4, 0x634cb3577b01fd3d, 0xa5224d6f55c7d9c8⟩ := by
      rw [hv, hc]
      decide
    have htail : tail [0x00, 0x01, 0x02, 0x03, 0x04, 0x05, 0x06, 0x07, 0x08, 0x09, 0x0a] = 0x0a0908 := by decide
    refine (runFrames_update_cons [0x00, 0x01, 0x02] [[0x03, 0x04, 0x05, 0x06, 0x07, 0x08, 0x09, 0x0a]] hph).trans
      ((exec_update_ok hph [0x00, 0x01, 0x02, 0x03, 0x04, 0x05, 0x06, 0x07, 0x08, 0x09, 0x0a]).trans ?_)
    rw [incrementalPathEqualsBatchPath s _ hph hfill hpend hlen, hlanes, htail]
    rfl

/-! ### The rounds each command applies (70_reset_and_hazards.md R194) -/

/-- How many of a sequence's operations are rounds. -/
def roundsIn (ops : List LaneOp) : Nat := ops.countP fun o => decide (laneOpKind o = .round)

theorem roundCount_eq_roundsIn (i : Instr) (s : State) : roundCount i s = roundsIn (laneOps i s) := rfl

@[simp] theorem roundsIn_nil : roundsIn [] = 0 := rfl

@[simp] theorem roundsIn_append (xs ys : List LaneOp) : roundsIn (xs ++ ys) = roundsIn xs + roundsIn ys :=
  List.countP_append

@[simp] theorem roundsIn_cons (o : LaneOp) (ops : List LaneOp) :
    roundsIn (o :: ops) = roundsIn ops + if laneOpKind o = .round then 1 else 0 := by
  simp [roundsIn, List.countP_cons]

@[simp] theorem roundsIn_replicate (c : Nat) : roundsIn (List.replicate c .round) = c := by
  simp [roundsIn, List.countP_replicate, laneOpKind]

@[simp] theorem roundsIn_blockOps (m : Word) (c : Nat) : roundsIn (blockOps m c) = c := by
  simp [blockOps, laneOpKind]

@[simp] theorem roundsIn_finalOps (m : Word) (c d : Nat) : roundsIn (finalOps m c d) = c + d := by
  simp [finalOps, laneOpKind]

@[simp] theorem roundsIn_batchOps (P : List Byte) (c : Nat) : roundsIn (batchOps P c) = c * (P.length / 8) := by
  have hsum : roundsIn (batchOps P c) =
      ((List.range (P.length / 8)).map fun j => roundsIn (blockOps (memRead P (8 * j) 8) c)).sum := List.countP_flatMap
  simp [hsum, Nat.mul_comm]

/-- `c` rounds for each block that completes. -/
theorem roundsIn_pushOps (c : Nat) (pend : Word) (fill : BitVec 3) (P : List Byte) :
    roundsIn (pushOps c pend fill P) = c * ((fill.toNat + P.length) / 8) := by
  induction P generalizing pend fill with
  | nil =>
    have hf := fill.isLt
    rw [pushOps, roundsIn_nil, List.length_nil, Nat.div_eq_of_lt (by omega), Nat.mul_zero]
  | cons b P ih =>
    rw [List.length_cons]
    by_cases h : fill.toNat + 1 = 8
    · have hdiv : (fill.toNat + (P.length + 1)) / 8 = P.length / 8 + 1 := by omega
      rw [pushOps, if_pos h, roundsIn_append, roundsIn_blockOps, ih, hdiv, Nat.mul_add_one, Nat.add_comm]
      simp
    · have hfill : (fill + 1).toNat = fill.toNat + 1 := by bv_omega
      rw [pushOps, if_neg h, ih, hfill, Nat.add_assoc, Nat.add_comm 1]

theorem roundCount_hash {s : State} (hkv : s.kv = true) (P : List Byte) :
    roundCount (.hash P) s = s.rcC.toNat * (P.length / 8 + 1) + s.rcD.toNat := by
  rw [roundCount_eq_roundsIn, laneOps, if_pos hkv]
  simp [laneOpKind, Nat.mul_add_one, Nat.add_assoc]

/-- Settles O55: each command's count is that of its operations, `roundsIn_pushOps` for UPDATE and `roundCount_hash` for
HASH. -/
theorem roundCountsOfTheCommands : Obligations.RoundCountsOfTheCommands := by
  refine ⟨fun _ _ _ => rfl, fun _ _ => rfl, fun s => ?_, fun P s hph => ?_, fun s hph => ?_,
    fun P s hkv => roundCount_hash hkv P, fun P s hkv hc hd => ?_⟩
  · rw [roundCount_eq_roundsIn, laneOps]
    split_ifs <;> rfl
  · rw [roundCount_eq_roundsIn, laneOps, if_pos hph, roundsIn_pushOps]
  · rw [roundCount_eq_roundsIn, laneOps, if_pos hph, roundsIn_finalOps]
  · rw [roundCount_hash hkv, hc, hd]
    show 2 * (P.length / 8 + 1) + 4 = 2 * (P.length / 8) + 6
    omega

end Sys2Proof.Machine

/-! ## Family 43_finalization: the final lane (R136) and its length tag (R139), FINISH (R138), HASH (R140), and `OUT` in
`DONE` -/

namespace Sys2Proof.Machine

open Sys2Proof

/-! ### The final lane -/

/-- At most `m` bytes assemble to a word that fits in `m` bytes. -/
theorem le_lt {bs : List Byte} {m : Nat} (h : bs.length ≤ m) (hm : m ≤ 8) : (le bs).toNat < 2 ^ (8 * m) := by
  rw [le_toNat (h.trans hm)]
  exact (leValue_lt bs).trans_le (Nat.pow_le_pow_right (by decide) (by omega))

/-- The tag goes into the free byte 7 as `PushByte` puts an eighth byte there (43_finalization.md R136). -/
theorem byteOf_finalLane {w : Word} (h : w.toNat < 2 ^ (8 * 7)) (n : Byte) (j : Nat) :
    byteOf (finalLane w n) j = if j = 7 then n else byteOf w j :=
  byteOf_pend_or (fill := 7) h n j

/-- The tail leaves byte 7 free. -/
theorem tail_lt (P : List Byte) : (tail P).toNat < 2 ^ (8 * 7) := by
  rw [tail_eq_le_drop]
  exact le_lt (by rw [List.length_drop]; omega) (by decide)

/-- Settles O25: the bytes are `byteOf_finalLane` and `byteOf_le`, the lanes absorbed are those of the laws of FINISH and
HASH, and byte 7 of `PEND` is a clause of the invariants of the reachable states. -/
theorem finalLaneIsTailAndTag : Obligations.FinalLaneIsTailAndTag := by
  refine ⟨fun _ _ => rfl, fun T n hT => ⟨fun j hj => ?_, fun j hj hj6 => ?_, ?_⟩, fun s t hph h => ?_,
    fun P s t hkv h => ?_, fun s hs => (reachableStatesMeetTheInvariants s hs).pend_top,
    by decide, by decide, by decide, by decide⟩
  · rw [byteOf_finalLane (le_lt hT (by decide)), if_neg (by omega), byteOf_le (by omega)]
  · rw [byteOf_finalLane (le_lt hT (by decide)), if_neg (by omega), byteOf_le (by omega), List.getD_eq_default _ _ hj]
  · rw [byteOf_finalLane (le_lt hT (by decide)), if_pos rfl]
  · cases (exec_finish_ok hph).symm.trans h
    rfl
  · cases (exec_hash_ok hkv P).symm.trans h
    rfl

/-- The tag of the lane HASH absorbs last (43_finalization.md R139). -/
theorem exec_hash_tag {P : List Byte} {s t : State} (hkv : s.kv = true) (h : exec (.hash P) s = .next t) :
    byteOf (finalLane t.pend t.len) 7 = BitVec.ofNat 8 (P.length % 256) := by
  cases (exec_hash_ok hkv P).symm.trans h
  rw [byteOf_finalLane (tail_lt P), if_pos rfl]

/-- Settles O26: `exec_hash_tag`, which sees of the message only its length modulo 256. -/
theorem lengthTagIsTheLowByte : Obligations.LengthTagIsTheLowByte := by
  intro P s t hkv ht
  refine ⟨?_, fun Q u hlen hu => ?_⟩
  · rw [exec_hash_tag hkv ht]
    apply BitVec.eq_of_toNat_eq
    simp
  · rw [exec_hash_tag hkv hu, exec_hash_tag hkv ht, hlen]

/-! ### `OUT` in `DONE` -/

/-- FINISH and HASH write the fold beside the lanes; CFG and a rejection touch neither, and the others leave `DONE`. -/
theorem exec_outputCurrent {i : Instr} {s t : State} (hs : OutputCurrent s) (h : exec i s = .next t) :
    OutputCurrent t := by
  rcases exec_cases i s with ⟨e, -, he⟩ | ⟨c, d, -, -, -, -, he⟩ | ⟨secret, -, -, he⟩ | ⟨-, -, he⟩ |
    ⟨P, -, hph, he⟩ | ⟨-, -, he⟩ | ⟨P, -, -, he⟩
  · cases he.symm.trans h; exact hs
  · cases he.symm.trans h; exact hs
  · cases he.symm.trans h; nofun
  · cases he.symm.trans h; nofun
  · cases he.symm.trans h
    intro hdone
    have habsorb : (pushBytes s P).ph = .absorb := (pushBytes_ph s P).trans hph
    exact nomatch habsorb.symm.trans hdone
  · cases he.symm.trans h; exact fun _ => rfl
  · cases he.symm.trans h; exact fun _ => rfl

theorem answerFrame_outputCurrent {F : Frame} {s t : State} (hs : OutputCurrent s) (h : answerFrame F s = .next t) :
    OutputCurrent t := by
  rcases answerFrame_cases F s with ⟨i, -, ha⟩ | ⟨e, -, ha⟩
  · exact exec_outputCurrent hs (ha.symm.trans h)
  · cases ha.symm.trans h
    exact hs

/-- Settles O53: a step waits, resets to `IDLE`, or answers a frame (`answerFrame_outputCurrent`). -/
theorem everyStepKeepsTheOutputCurrent : Obligations.EveryStepKeepsTheOutputCurrent := by
  intro s t hs h
  rcases step_cases s with ⟨-, hstep⟩ | ⟨rest, -, hstep⟩ | ⟨F, rest, -, hstep⟩
  · cases hstep.symm.trans h
    exact hs
  · cases hstep.symm.trans h
    nofun
  · exact answerFrame_outputCurrent (s := { s with port := rest }) hs (hstep.symm.trans h)

/-! ### FINISH and HASH whole -/

/-- With no byte buffered the final lane is the tag alone (43_finalization.md R138). -/
theorem finalLane_of_fill_zero {s : State} (hs : StateInv s) (hfill : s.fill = 0) :
    finalLane s.pend s.len = zext64 s.len <<< 56 := by
  have hclean := hs.pend_clean
  rw [hfill] at hclean
  have hpend : s.pend = 0 := BitVec.eq_of_toNat_eq (Nat.lt_one_iff.mp hclean)
  rw [finalLane, hpend]
  exact BitVec.zero_or

/-- Settles O32: the decoder by `decodeFor_finish_length`, the answers by the two laws of FINISH, the empty message by
`exec_finish_pushBytes`; the example's lanes are evaluated. -/
theorem finishProducesTheDigest : Obligations.FinishProducesTheDigest := by
  refine ⟨rfl, rfl, fun rest h => decodeFor_finish_length _ fun hrest => h ?_, fun _ => exec_finish_phase,
    fun s w hph hw => ?_, fun s t hph h => ?_, fun s t hkv hinit => exec_finish_pushBytes hkv hinit [] t.err,
    fun _ => finalLane_of_fill_zero, fun s hph hpend hlen hc hd hv => ?_⟩
  · rw [List.length_cons, hrest]
  · rw [hw]
    exact exec_finish_ok hph
  · cases (exec_finish_ok hph).symm.trans h
    exact exec_finish_phase (by nofun)
  · have hlanes : finalizeLanes s.v (finalLane s.pend s.len) s.rcC.toNat s.rcD.toNat =
        ⟨0xf6bcd53893fecff1, 0x54b9964c7ea0d937, 0x1b38329c099bb55a, 0x1814bb89ad7be679⟩ := by
      rw [hpend, hlen, hc, hd, hv]
      decide
    have hout : outputFold ⟨0xf6bcd53893fecff1, 0x54b9964c7ea0d937, 0x1b38329c099bb55a, 0x1814bb89ad7be679⟩ =
        0xa129ca6149be45e5 := by decide
    rw [exec_finish_ok hph, hlanes, hout]

/-- A HASH frame's answer under a key, as far as the examples of R140 look at it. -/
theorem answerFrame_hash_ok {s : State} (hkv : s.kv = true) (P : List Byte) : ∃ t,
    answerFrame (0x06 :: P) s = .next t ∧ t.out = outputFold (hashLanes s.k P s.rcC.toNat s.rcD.toNat) ∧
    t.pend = tail P ∧ t.fill = BitVec.ofNat 3 (P.length % 8) ∧ t.len = BitVec.ofNat 8 (P.length % 256) :=
  ⟨_, (answerFrame_cmd rfl s).trans (exec_hash_ok hkv P), rfl, rfl, rfl, rfl⟩

/-- Settles O33: the answers are the two laws of HASH, what it does not read is `exec_hash_congr`, and each example
evaluates the registers that `answerFrame_hash_ok` names. -/
theorem hashComputesTheDigest : Obligations.HashComputesTheDigest := by
  refine ⟨fun _ => ⟨rfl, rfl⟩, fun P _ hkv => exec_hash_nokey hkv P, fun P s w hkv hw => ?_,
    fun _ _ _ _ => exec_hash_congr, fun s hkv hk hc hd => ⟨?_, ?_, ?_⟩⟩
  · rw [hw]
    exact exec_hash_ok hkv P
  · obtain ⟨t, ht, hout, -⟩ := answerFrame_hash_ok hkv []
    rw [hk, hc, hd] at hout
    exact ⟨t, ht, hout.trans (by decide)⟩
  · obtain ⟨t, ht, hout, -⟩ := answerFrame_hash_ok hkv [0x00]
    rw [hk, hc, hd] at hout
    exact ⟨t, ht, hout.trans (by decide)⟩
  · obtain ⟨t, ht, hout, hpend, hfill, hlen⟩ := answerFrame_hash_ok hkv
      [0x00, 0x01, 0x02, 0x03, 0x04, 0x05, 0x06, 0x07, 0x08, 0x09, 0x0a, 0x0b, 0x0c, 0x0d, 0x0e]
    rw [hk, hc, hd] at hout
    exact ⟨t, ht, hout.trans (by decide), hpend.trans (by decide), hfill, hlen⟩

end Sys2Proof.Machine

/-! ## Family 44_drivers: the three driver shapes agree (R154) -/

namespace Sys2Proof.Machine

open Sys2Proof

/-! ### Runs whose frames are all answered OK -/

/-- The frames are run from `s` to `t`, and each of them is answered OK. -/
structure AcceptedRun (Fs : List Frame) (s t : State) : Prop where
  ends : runFrames Fs s = .next t
  all_ok : allAccepted Fs s

theorem AcceptedRun.nil (s : State) : AcceptedRun [] s s := ⟨rfl, trivial⟩

/-- A command that its state accepts, sent before an accepted run. -/
theorem AcceptedRun.cons {i : Instr} (hi : WellFormed i) {s u t : State} {Fs : List Frame} (h : exec i s = .next u)
    (hok : u.err = .ok) (hrun : AcceptedRun Fs u t) : AcceptedRun (encode i :: Fs) s t := by
  have hF : answerFrame (encode i) s = .next u := (answerFrame_cmd (decodeFor_encode hi) s).trans h
  exact ⟨by rw [runFrames_cons, hF, andThen_next, hrun.ends], u, hF, hok, hrun.all_ok⟩

theorem AcceptedRun.append {Fs Gs : List Frame} {s u t : State} (hF : AcceptedRun Fs s u) (hG : AcceptedRun Gs u t) :
    AcceptedRun (Fs ++ Gs) s t := by
  refine ⟨by rw [runFrames_append, hF.ends, andThen_next, hG.ends], ?_⟩
  obtain ⟨hends, hall⟩ := hF
  induction Fs generalizing s with
  | nil =>
    cases hends
    exact hG.all_ok
  | cons F Fs ih =>
    obtain ⟨w, hw, hok, hrest⟩ := hall
    rw [runFrames_cons, hw, andThen_next] at hends
    exact ⟨w, hw, hok, ih hends hrest⟩

/-! ### The parts of the three shapes -/

/-- The start that the shapes share loads the key and the counts, if any are sent. -/
theorem acceptedRun_keyedStart {counts : Option (Byte × Byte)} {key : List Byte} {s : State} (hkey : key.length = 16)
    (hcounts : ∀ c d, counts = some (c, d) → c ≠ 0 ∧ d ≠ 0 ∧ s.ph ≠ .absorb) :
    ∃ u, AcceptedRun (keyedStart counts key) s u ∧ u.kv = true ∧
      ∀ c d, counts = some (c, d) → u.rcC = c ∧ u.rcD = d := by
  have hwf : WellFormed (.key key) := (wellFormed_iff _).2 fun _ h => by cases h; exact hkey
  have hrun (s : State) := (AcceptedRun.nil _).cons hwf (exec_key_ok s hkey) rfl
  match counts with
  | none => exact ⟨_, hrun s, rfl, nofun⟩
  | some (c, d) =>
    obtain ⟨hc, hd, hph⟩ := hcounts c d rfl
    refine ⟨_, (hrun _).cons rfl (exec_cfg_ok hph hc hd) rfl, rfl, fun c' d' h => ?_⟩
    cases h
    exact ⟨rfl, rfl⟩

/-- A HASH under a key is accepted and keeps the key. -/
theorem exec_hash_err_kv {s t : State} (hkv : s.kv = true) {P : List Byte} (h : exec (.hash P) s = .next t) :
    t.err = .ok ∧ t.kv = true := by
  cases (exec_hash_ok hkv P).symm.trans h
  exact ⟨rfl, hkv⟩

/-- A HASH does not see an earlier HASH (43_finalization.md R140). -/
theorem exec_hash_of_exec_hash {s t : State} {P : List Byte} (hkv : s.kv = true) (h : exec (.hash P) s = .next t)
    (Q : List Byte) : exec (.hash Q) t = exec (.hash Q) s := by
  obtain ⟨-, hkv'⟩ := exec_hash_err_kv hkv h
  rw [exec_hash_ok hkv', exec_hash_ok hkv]
  cases (exec_hash_ok hkv P).symm.trans h
  rfl

/-- After any earlier HASH frames, a HASH ends as it does without them (44_drivers.md R152). -/
theorem acceptedRun_hashes {s t : State} (hkv : s.kv = true) {P : List Byte} (h : exec (.hash P) s = .next t)
    (earlier : List (List Byte)) :
    AcceptedRun (earlier.map (fun d => encode (.hash d)) ++ [encode (.hash P)]) s t := by
  induction earlier generalizing s with
  | nil => exact (AcceptedRun.nil t).cons rfl h (exec_hash_err_kv hkv h).1
  | cons d earlier ih =>
    obtain ⟨u, hd⟩ := exec_total (.hash d) s
    obtain ⟨hok, hkv'⟩ := exec_hash_err_kv hkv hd
    exact (ih hkv' ((exec_hash_of_exec_hash hkv hd P).trans h)).cons rfl hd hok

/-- In an open session every UPDATE and then FINISH are accepted. -/
theorem acceptedRun_updates_finish {s : State} (hph : s.ph = .absorb) (chunks : List (List Byte)) :
    ∃ t, AcceptedRun (chunks.map (fun d => encode (.update d)) ++ [encode .finish]) s t := by
  induction chunks generalizing s with
  | nil => exact ⟨_, (AcceptedRun.nil _).cons rfl (exec_finish_ok hph) rfl⟩
  | cons d chunks ih =>
    obtain ⟨t, hrun⟩ := ih (s := (pushBytes s d).accept) ((pushBytes_ph s d).trans hph)
    exact ⟨t, hrun.cons rfl (exec_update_ok hph d) rfl⟩

/-- A session ends as HASH of its payloads joined (`runFrames_updates`), every frame accepted. -/
theorem acceptedRun_session {s t : State} (hkv : s.kv = true) {chunks : List (List Byte)}
    (h : exec (.hash chunks.flatten) s = .next t) :
    AcceptedRun (encode .init :: chunks.map (fun d => encode (.update d)) ++ [encode .finish]) s t := by
  obtain ⟨u, hrun⟩ := acceptedRun_updates_finish (s := { s with
    v := initLanes s.k, pend := 0, fill := 0, len := 0, ph := .absorb, err := .ok }) rfl chunks
  exact ⟨(runFrames_updates hkv chunks).trans (acceptedRun_hashes hkv h []).ends,
    (hrun.cons rfl (exec_init_ok hkv) rfl).all_ok⟩

/-! ### Agreement -/

/-- Settles O36: after the common start each shape ends as one HASH of the data, the container by `acceptedRun_hashes`
and the stream by `acceptedRun_session`; HASH keeps the counts. -/
theorem driversAgree : Obligations.DriversAgree := by
  intro counts key data earlier chunks s hkey hdata hcounts
  subst hdata
  obtain ⟨u, hstart, hkv, hheld⟩ := acceptedRun_keyedStart hkey hcounts
  have hhash := exec_hash_ok hkv chunks.flatten
  have hbatch := hstart.append (acceptedRun_hashes hkv hhash [])
  have hcontainer := hstart.append (acceptedRun_hashes hkv hhash earlier)
  have hstream := hstart.append (acceptedRun_session hkv hhash)
  rw [← List.append_assoc] at hcontainer hstream
  exact ⟨_, hbatch.ends, hcontainer.ends, hstream.ends, rfl, hheld, hbatch.all_ok, hcontainer.all_ok, hstream.all_ok⟩

end Sys2Proof.Machine

/-! ## Family 60_exceptions: rejections (R163, R164), the fixed order of the tests (R171) and E_NOKEY (R169) -/

namespace Sys2Proof.Machine

open Sys2Proof

/-! ### A rejection writes `ERR` only -/

/-- A command rejects, or answers OK. -/
theorem exec_reject_or_ok (i : Instr) (s : State) :
    (∃ e, e ≠ Code.ok ∧ exec i s = .next (s.reject e)) ∨ ∃ t, exec i s = .next t ∧ t.err = .ok := by
  refine (exec_cases i s).imp_right fun h => ?_
  rcases h with ⟨c, d, -, -, -, -, he⟩ | ⟨secret, -, -, he⟩ | ⟨-, -, he⟩ | ⟨P, -, -, he⟩ | ⟨-, -, he⟩ | ⟨P, -, -, he⟩
  all_goals exact ⟨_, he, rfl⟩

theorem exec_eq_reject {i : Instr} {s t : State} (h : exec i s = .next t) (herr : t.err ≠ .ok) :
    t = s.reject t.err := by
  rcases exec_reject_or_ok i s with ⟨e, -, he⟩ | ⟨u, hu, hok⟩
  · cases he.symm.trans h; rfl
  · cases hu.symm.trans h; exact absurd hok herr

theorem answerFrame_eq_reject {F : Frame} {s t : State} (h : answerFrame F s = .next t) (herr : t.err ≠ .ok) :
    t = s.reject t.err := by
  rcases answerFrame_cases F s with ⟨i, -, ha⟩ | ⟨e, -, ha⟩
  · exact exec_eq_reject (ha.symm.trans h) herr
  · cases ha.symm.trans h; rfl

/-- Settles O37: the next state is `State.reject` of the old one, for a command and so for a frame. -/
theorem rejectionChangesOnlyErr : Obligations.RejectionChangesOnlyErr :=
  ⟨fun _ _ _ => answerFrame_eq_reject, fun _ _ _ => exec_eq_reject⟩

/-- Settles O38: the rejected frame changed `ERR` only, which the next frame does not read (`answerFrame_err`). -/
theorem rejectionIsNotSticky : Obligations.RejectionIsNotSticky := by
  intro G Fs s t h herr hFs
  obtain ⟨F, Fs, rfl⟩ := List.exists_cons_of_ne_nil hFs
  have hnext : answerFrame F t = answerFrame F s := by
    rw [answerFrame_eq_reject h herr]
    exact answerFrame_err F s t.err
  rw [runFrames_cons, h, andThen_next, runFrames_cons, runFrames_cons, hnext]

/-! ### The fixed order of the tests (60_exceptions.md R171) -/

theorem responseTo_reserved {op : Byte} (h : reservedOpcode op = true) (rest : List Byte) (kv : Bool) (ph : Phase) :
    responseTo (op :: rest) kv ph = .eIllegal := by
  simp only [responseTo, h, ↓reduceIte]

theorem responseTo_cfg (c d : Byte) (kv : Bool) (ph : Phase) : responseTo (encode (.cfg c d)) kv ph =
    if ph = .absorb then .ePhase else if c = 0 ∨ d = 0 then .eRounds else .ok := by
  simp [responseTo, encode, opcodeOf, operandBytes, reservedOpcode]

theorem responseTo_key (P : List Byte) (kv : Bool) (ph : Phase) : responseTo (encode (.key P)) kv ph =
    if P.length = 16 then .ok else .eKeylen := by
  simp [responseTo, encode, opcodeOf, operandBytes, reservedOpcode]

theorem responseTo_init (kv : Bool) (ph : Phase) : responseTo (encode .init) kv ph = if kv then .ok else .eNokey := by
  cases kv <;> rfl

theorem responseTo_update (P : List Byte) (kv : Bool) (ph : Phase) : responseTo (encode (.update P)) kv ph =
    if ph = .absorb then .ok else .ePhase := by
  cases ph <;> rfl

theorem responseTo_finish (kv : Bool) (ph : Phase) : responseTo (encode .finish) kv ph =
    if ph = .absorb then .ok else .ePhase := by
  cases ph <;> rfl

theorem responseTo_hash (P : List Byte) (kv : Bool) (ph : Phase) : responseTo (encode (.hash P)) kv ph =
    if kv then .ok else .eNokey := by
  cases kv <;> rfl

/-- A command tests its preconditions in the fixed order. -/
theorem exec_err_eq_responseTo (i : Instr) (s : State) :
    ∃ t, exec i s = .next t ∧ t.err = responseTo (encode i) s.kv s.ph := by
  cases i with
  | cfg c d =>
    rw [responseTo_cfg]
    split_ifs with hph hz
    · exact ⟨_, exec_cfg_phase hph c d, rfl⟩
    · exact ⟨_, exec_cfg_rounds hph hz, rfl⟩
    · push Not at hz
      exact ⟨_, exec_cfg_ok hph hz.1 hz.2, rfl⟩
  | key P =>
    rw [responseTo_key]
    split_ifs with hP
    · exact ⟨_, exec_key_ok s hP, rfl⟩
    · exact ⟨_, exec_key_length s hP, rfl⟩
  | init =>
    rw [responseTo_init]
    split_ifs with hkv
    · exact ⟨_, exec_init_ok hkv, rfl⟩
    · exact ⟨_, exec_init_nokey (eq_false_of_ne_true hkv), rfl⟩
  | update P =>
    rw [responseTo_update]
    split_ifs with hph
    · exact ⟨_, exec_update_ok hph P, rfl⟩
    · exact ⟨_, exec_update_phase hph P, rfl⟩
  | finish =>
    rw [responseTo_finish]
    split_ifs with hph
    · exact ⟨_, exec_finish_ok hph, rfl⟩
    · exact ⟨_, exec_finish_phase hph, rfl⟩
  | hash P =>
    rw [responseTo_hash]
    split_ifs with hkv
    · exact ⟨_, exec_hash_ok hkv P, rfl⟩
    · exact ⟨_, exec_hash_nokey (eq_false_of_ne_true hkv) P, rfl⟩

/-- A test of the decoder stands before every test of `KV` and `PH`. -/
theorem responseTo_of_decode_reject {F : Frame} {e : Code} (h : decode F = .reject e) (kv : Bool) (ph : Phase) :
    responseTo F kv ph = e := by
  cases F with
  | nil => cases h; rfl
  | cons op rest =>
    rcases opcode_cases op with rfl | rfl | rfl | rfl | rfl | rfl | hop
    · have hlen : rest.length ≠ 2 := fun hlen => by
        obtain ⟨c, d, rfl⟩ := List.length_eq_two.1 hlen
        cases h
      cases (decodeFor_cfg_length _ hlen).symm.trans h
      simp [responseTo, reservedOpcode, hlen]
    · have hlen : rest.length ≠ 16 := fun hlen => nomatch (decode_key hlen).symm.trans h
      cases (decodeFor_key_length _ hlen).symm.trans h
      exact (responseTo_key rest kv ph).trans (if_neg hlen)
    · cases rest <;> cases h
      rfl
    · cases h
    · cases rest <;> cases h
      rfl
    · cases h
    · cases (decodeFor_reserved hop _ rest).symm.trans h
      exact responseTo_reserved hop rest kv ph

/-- Settles O40: the decoder's tests are `responseTo_of_decode_reject`, the command's `exec_err_eq_responseTo`. -/
theorem firstFailingTestAnswers : Obligations.FirstFailingTestAnswers := by
  intro F s
  rcases answerFrame_cases F s with ⟨i, hi, ha⟩ | ⟨e, he, ha⟩
  · rw [ha, eq_encode_of_decodeFor hi]
    exact exec_err_eq_responseTo i s
  · exact ⟨_, ha, (responseTo_of_decode_reject he s.kv s.ph).symm⟩

/-! ### `KV` and E_NOKEY -/

/-- The fixed order gives E_NOKEY to INIT and HASH without a key, and to no other command. -/
theorem responseTo_encode_eq_eNokey_iff (i : Instr) (kv : Bool) (ph : Phase) :
    responseTo (encode i) kv ph = .eNokey ↔ (i = .init ∨ ∃ P, i = .hash P) ∧ kv = false := by
  cases i with
  | cfg c d => rw [responseTo_cfg]; split_ifs <;> simp
  | key P => rw [responseTo_key]; split_ifs <;> simp
  | init => rw [responseTo_init]; cases kv <;> simp
  | update P => rw [responseTo_update]; split_ifs <;> simp
  | finish => rw [responseTo_finish]; split_ifs <;> simp
  | hash P => rw [responseTo_hash]; cases kv <;> simp

/-- With a key loaded the fixed order does not come to E_NOKEY. -/
theorem responseTo_ne_eNokey (F : Frame) (ph : Phase) : responseTo F true ph ≠ .eNokey := by
  cases F with
  | nil => nofun
  | cons op rest =>
    simp only [responseTo, Bool.true_eq_false, and_false, if_false]
    split_ifs <;> nofun

theorem responseTo_eq_eNokey_iff (F : Frame) (kv : Bool) (ph : Phase) : responseTo F kv ph = .eNokey ↔
    (decode F = .cmd .init ∨ ∃ P, decode F = .cmd (.hash P)) ∧ kv = false := by
  cases hF : decode F with
  | cmd i =>
    rw [eq_encode_of_decodeFor hF, responseTo_encode_eq_eNokey_iff]
    simp only [Decoded.cmd.injEq]
  | reject e =>
    have he : e ≠ .eNokey := responseTo_of_decode_reject hF true ph ▸ responseTo_ne_eNokey F ph
    rw [responseTo_of_decode_reject hF]
    exact iff_of_false he (by simp)

theorem pushBytes_kv (s : State) (P : List Byte) : (pushBytes s P).kv = s.kv := by
  obtain ⟨v, pend, fill, h⟩ := pushBytes_frame P s
  rw [h]

/-- Only an accepted KEY writes `KV`, and it sets it. -/
theorem exec_kv_cases {i : Instr} {s t : State} (h : exec i s = .next t) :
    t.kv = s.kv ∨ (∃ P, i = .key P) ∧ t.kv = true ∧ t.err = .ok := by
  rcases exec_cases i s with ⟨e, -, he⟩ | ⟨c, d, -, -, -, -, he⟩ | ⟨secret, hi, -, he⟩ | ⟨-, -, he⟩ |
    ⟨P, -, -, he⟩ | ⟨-, -, he⟩ | ⟨P, -, -, he⟩
  · cases he.symm.trans h; exact .inl rfl
  · cases he.symm.trans h; exact .inl rfl
  · cases he.symm.trans h; exact .inr ⟨⟨secret, hi⟩, rfl, rfl⟩
  · cases he.symm.trans h; exact .inl rfl
  · cases he.symm.trans h
    exact .inl (pushBytes_kv s P)
  · cases he.symm.trans h; exact .inl rfl
  · cases he.symm.trans h; exact .inl rfl

theorem answerFrame_kv_cases {F : Frame} {s t : State} (h : answerFrame F s = .next t) :
    t.kv = s.kv ∨ (∃ P, decode F = .cmd (.key P)) ∧ t.kv = true ∧ t.err = .ok := by
  rcases answerFrame_cases F s with ⟨i, hi, ha⟩ | ⟨e, -, ha⟩
  · rw [hi]
    simpa only [Decoded.cmd.injEq] using exec_kv_cases (ha.symm.trans h)
  · cases ha.symm.trans h; exact .inl rfl

theorem step_reset_of_kv_cleared {s t : State} (h : step s = .next t) (hs : s.kv = true) (ht : t.kv = false) :
    ∃ rest, s.port = .reset :: rest := by
  rcases step_cases s with ⟨-, hstep⟩ | ⟨rest, hport, -⟩ | ⟨F, rest, -, hstep⟩
  · cases hstep.symm.trans h
    exact nomatch hs.symm.trans ht
  · exact ⟨rest, hport⟩
  · rcases answerFrame_kv_cases (hstep.symm.trans h) with hkv | ⟨-, hkv, -⟩
    · exact nomatch hs.symm.trans (hkv.symm.trans ht)
    · exact nomatch hkv.symm.trans ht

/-- Settles O43: the code is the first failing test's (`firstFailingTestAnswers`), which is E_NOKEY by
`responseTo_eq_eNokey_iff`; who writes `KV` is `answerFrame_kv_cases`. -/
theorem noKeyUntilTheFirstKey : Obligations.NoKeyUntilTheFirstKey := by
  refine ⟨fun F s t h => ?_, rfl, fun F s t h hs ht => ?_, fun _ _ => step_reset_of_kv_cleared⟩
  · obtain ⟨u, hu, herr⟩ := firstFailingTestAnswers F s
    cases hu.symm.trans h
    rw [herr]
    exact responseTo_eq_eNokey_iff F s.kv s.ph
  · rcases answerFrame_kv_cases h with hkv | ⟨⟨P, hP⟩, -, hok⟩
    · exact nomatch ht.symm.trans (hkv.trans hs)
    · exact ⟨P, hP, hok⟩

end Sys2Proof.Machine

/-! ## Family other: decoding against encoding (R79), the assembler (R81), the run (R59), the port (R36), the response
(R161), the registers over all commands (R22, R26, R29, R190), the word operators (R8), the round (R114, R116) and the
sequence of lane operations (R23, R193) -/

namespace Sys2Proof.Machine

open Sys2Proof

/-! ### Decoding against encoding (30_encoding.md R79) and the payload bound (R77) -/

/-- Settles O3: a decoded command is well formed and its frame is the encoding; back, `decodeFor_encode`. -/
theorem decodeAndEncodeAgree : Obligations.DecodeAndEncodeAgree := fun _ _ _ =>
  ⟨fun h => ⟨wellFormedFor_of_decodeFor h, eq_encode_of_decodeFor h⟩, fun ⟨hwf, hF⟩ => hF ▸ decodeFor_encode hwf⟩

/-- A finite bound, as an inequality. -/
theorem fits_some (m n : Nat) : Config.fits (some m) n = true ↔ n ≤ m := decide_eq_true_iff

/-- A payload within the bound passes the bound's tests as every payload passes them without a bound. -/
theorem decodeFor_cons_of_fits {max : Option Nat} {rest : List Byte} (h : Config.fits max rest.length = true)
    (op : Byte) : decodeFor max (op :: rest) = decode (op :: rest) := by
  have hnone : Config.fits Config.maxPayload rest.length = true := rfl
  simp only [decode, decodeFor, h, hnone]

theorem decodeFor_update_bound {max : Option Nat} {P : List Byte} (h : ¬ Config.fits max P.length = true) :
    decodeFor max (0x04 :: P) = .reject .eFrame := if_neg h

theorem decodeFor_hash_bound {max : Option Nat} {P : List Byte} (h : ¬ Config.fits max P.length = true) :
    decodeFor max (0x06 :: P) = .reject .eFrame := if_neg h

theorem decodeFor_key_bound {max : Option Nat} {P : List Byte} (hlen : P.length = 16)
    (h : ¬ Config.fits max P.length = true) : decodeFor max (0x02 :: P) = .reject .eFrame :=
  (if_pos hlen).trans (if_neg h)

theorem answerFrameFor_reject {max : Option Nat} {F : Frame} {e : Code} (h : decodeFor max F = .reject e) (s : State) :
    answerFrameFor max F s = .next (s.reject e) := by
  simp only [answerFrameFor, h]

/-- Settles O5: the lengths by the decoder's lemmas of each opcode, a longer payload by the three `_bound` lemmas, and a
frame within the bound by `decodeFor_cons_of_fits`. -/
theorem lengthViolationsAndPayloadBound : Obligations.LengthViolationsAndPayloadBound := by
  refine ⟨fun _ => rfl, fun max _ => decodeFor_cfg_length max, fun max _ => decodeFor_init_length max,
    fun max _ => decodeFor_finish_length max, fun max _ => decodeFor_key_length max, fun m P s hlong => ?_,
    fun m F hF => ?_, rfl⟩
  · have hover : ¬ Config.fits (some m) P.length = true := fun h => hlong.not_ge ((fits_some _ _).1 h)
    exact ⟨answerFrameFor_reject (decodeFor_update_bound hover) s, answerFrameFor_reject (decodeFor_hash_bound hover) s,
      fun hlen => answerFrameFor_reject (decodeFor_key_bound hlen hover) s⟩
  · cases F with
    | nil => rfl
    | cons op rest => exact decodeFor_cons_of_fits ((fits_some _ _).2 (Nat.le_of_succ_le_succ hF)) op

/-! ### The assembler reads the lines it writes (30_encoding.md R81) -/

/-- A character that continues a word: no comment, blank or comma. -/
def wordChar (ch : Char) : Bool := ch ≠ ';' ∧ ch ≠ ' ' ∧ ch ≠ '\t' ∧ ch ≠ ','

theorem tokensFrom_cons_word {ch : Char} (h : wordChar ch = true) (cur rest : List Char) :
    tokensFrom cur (ch :: rest) = tokensFrom (cur ++ [ch]) rest := by
  obtain ⟨hsemi, hblank, htab, hcomma⟩ := of_decide_eq_true h
  simp only [tokensFrom, hsemi, hblank, htab, hcomma, or_self, if_false]

/-- The characters of a word are collected. -/
theorem tokensFrom_append_word {w : List Char} (hw : ∀ ch ∈ w, wordChar ch = true) (cur rest : List Char) :
    tokensFrom cur (w ++ rest) = tokensFrom (cur ++ w) rest := by
  induction w generalizing cur with
  | nil => rw [List.nil_append, List.append_nil]
  | cons ch w ih =>
    obtain ⟨hch, hw⟩ := List.forall_mem_cons.1 hw
    rw [List.cons_append, tokensFrom_cons_word hch, ih hw, List.append_assoc, List.singleton_append]

theorem tokensFrom_blank {cur : List Char} (h : cur ≠ []) (rest : List Char) :
    tokensFrom cur (' ' :: rest) = cur :: tokensFrom [] rest := by
  simp [tokensFrom, h]

/-- A blank outside a word is skipped. -/
theorem tokensFrom_nil_blank (rest : List Char) : tokensFrom [] (' ' :: rest) = tokensFrom [] rest := rfl

theorem tokensFrom_comma {cur : List Char} (h : cur ≠ []) (rest : List Char) :
    tokensFrom cur (',' :: rest) = cur :: [','] :: tokensFrom [] rest := by
  simp [tokensFrom, h]

theorem tokensFrom_nil {cur : List Char} (h : cur ≠ []) : tokensFrom cur [] = [cur] := if_neg h

/-- A hex digit continues a word and is read back. -/
theorem hexChar_digit {n : Nat} (h : n < 16) : wordChar (hexChar n) = true ∧ hexValue (hexChar n) = some n := by
  revert n
  decide

theorem hexText_word (b : Byte) : ∀ ch ∈ hexText b, wordChar ch = true := by
  have hb := b.isLt
  rw [hexText, List.forall_mem_cons, List.forall_mem_singleton]
  exact ⟨(hexChar_digit (by omega)).1, (hexChar_digit (by omega)).1⟩

theorem hexByte_hexText (b : Byte) : hexByte (hexText b) = some b := by
  have hb := b.isLt
  have hhigh : hexValue (hexChar (b.toNat / 16)) = some (b.toNat / 16) := (hexChar_digit (by omega)).2
  have hlow : hexValue (hexChar (b.toNat % 16)) = some (b.toNat % 16) := (hexChar_digit (by omega)).2
  simp only [hexText, hexByte, hhigh, hlow, Nat.div_add_mod, BitVec.ofNat_toNat, BitVec.setWidth_eq]

theorem hexBytes_map_hexText (bs : List Byte) : hexBytes (bs.map hexText) = some bs := by
  induction bs with
  | nil => rfl
  | cons b bs ih => simp only [List.map_cons, hexBytes, hexByte_hexText, ih]

/-- After a word the hex operands are one token each. -/
theorem tokensFrom_hexOperands {cur : List Char} (h : cur ≠ []) (bs : List Byte) :
    tokensFrom cur (hexOperands bs) = cur :: bs.map hexText := by
  induction bs generalizing cur with
  | nil => exact tokensFrom_nil h
  | cons b bs ih =>
    have hline : hexOperands (b :: bs) = ' ' :: (hexText b ++ hexOperands bs) := rfl
    rw [hline, tokensFrom_blank h, tokensFrom_append_word (hexText_word b), List.nil_append, ih (by nofun),
      List.map_cons]

/-- A decimal digit continues a word and is read back. -/
theorem decimalChar_digit {n : Nat} (h : n < 10) : wordChar (Char.ofNat (48 + n)) = true ∧
    48 ≤ (Char.ofNat (48 + n)).toNat ∧ (Char.ofNat (48 + n)).toNat ≤ 57 ∧ (Char.ofNat (48 + n)).toNat - 48 = n := by
  revert n
  decide

theorem decimalFrom_digit {n : Nat} (h : n < 10) (acc : Nat) (rest : List Char) :
    decimalFrom acc (Char.ofNat (48 + n) :: rest) = decimalFrom (10 * acc + n) rest := by
  obtain ⟨-, hlow, hhigh, hval⟩ := decimalChar_digit h
  rw [decimalFrom, if_pos ⟨hlow, hhigh⟩, hval]

/-- The number of a byte in one, two or three decimal digits, the split of `decimalText`. -/
theorem decimalText_cases (b : Byte) :
    (∃ x, x < 10 ∧ b.toNat = x ∧ decimalText b = [Char.ofNat (48 + x)]) ∨
    (∃ x y, x < 10 ∧ y < 10 ∧ b.toNat = 10 * x + y ∧
      decimalText b = [Char.ofNat (48 + x), Char.ofNat (48 + y)]) ∨
    (∃ x y z, x < 10 ∧ y < 10 ∧ z < 10 ∧ b.toNat = 10 * (10 * x + y) + z ∧
      decimalText b = [Char.ofNat (48 + x), Char.ofNat (48 + y), Char.ofNat (48 + z)]) := by
  have hb := b.isLt
  rw [decimalText]
  split_ifs with h10 h100
  · exact .inl ⟨_, h10, rfl, rfl⟩
  · exact .inr (.inl ⟨_, _, by omega, by omega, by omega, rfl⟩)
  · exact .inr (.inr ⟨_, _, _, by omega, by omega, by omega, by omega, rfl⟩)

theorem decimalText_word (b : Byte) : ∀ ch ∈ decimalText b, wordChar ch = true := by
  rcases decimalText_cases b with ⟨x, hx, -, h⟩ | ⟨x, y, hx, hy, -, h⟩ | ⟨x, y, z, hx, hy, hz, -, h⟩
  · simp [h, decimalChar_digit hx]
  · simp [h, decimalChar_digit hx, decimalChar_digit hy]
  · simp [h, decimalChar_digit hx, decimalChar_digit hy, decimalChar_digit hz]

theorem decimalText_ne_nil (b : Byte) : decimalText b ≠ [] := by
  rw [decimalText]
  split_ifs <;> nofun

theorem decimalFrom_decimalText (b : Byte) : decimalFrom 0 (decimalText b) = some b.toNat := by
  rcases decimalText_cases b with ⟨x, hx, hb, h⟩ | ⟨x, y, hx, hy, hb, h⟩ | ⟨x, y, z, hx, hy, hz, hb, h⟩
  · rw [h, hb, decimalFrom_digit hx, Nat.mul_zero, Nat.zero_add, decimalFrom]
  · rw [h, hb, decimalFrom_digit hx, decimalFrom_digit hy, Nat.mul_zero, Nat.zero_add, decimalFrom]
  · rw [h, hb, decimalFrom_digit hx, decimalFrom_digit hy, decimalFrom_digit hz, Nat.mul_zero, Nat.zero_add,
      decimalFrom]

theorem decimalByte_decimalText (b : Byte) : decimalByte (decimalText b) = some b := by
  have hb : b.toNat ≤ 255 := Nat.le_of_lt_succ b.isLt
  obtain ⟨ch, rest, h⟩ := List.exists_cons_of_ne_nil (decimalText_ne_nil b)
  have hval := decimalFrom_decimalText b
  rw [h] at hval ⊢
  simp only [decimalByte, hval, if_pos hb, BitVec.ofNat_toNat, BitVec.setWidth_eq]

/-- The tokens of a mnemonic and its hex operands. -/
theorem tokensFrom_mnemonic {m : List Char} (hm : ∀ ch ∈ m, wordChar ch = true) (hne : m ≠ []) (bs : List Byte) :
    tokensFrom [] (m ++ hexOperands bs) = m :: bs.map hexText := by
  rw [tokensFrom_append_word hm, List.nil_append, tokensFrom_hexOperands hne]

theorem tokensFrom_asmLine_cfg (c d : Byte) :
    tokensFrom [] (asmLine (.cfg c d)) = [['C', 'F', 'G'], decimalText c, [','], decimalText d] := by
  have hline : asmLine (.cfg c d) =
      ['C', 'F', 'G'] ++ ' ' :: (decimalText c ++ ',' :: ' ' :: (decimalText d ++ [])) := by
    simp [asmLine]
  rw [hline, tokensFrom_append_word (by simp [wordChar]), List.nil_append, tokensFrom_blank (by nofun),
    tokensFrom_append_word (decimalText_word c), List.nil_append, tokensFrom_comma (decimalText_ne_nil c),
    tokensFrom_nil_blank, tokensFrom_append_word (decimalText_word d), List.nil_append,
    tokensFrom_nil (decimalText_ne_nil d)]

theorem parseLine_asmLine (i : Instr) : parseLine (asmLine i) = some i := by
  cases i with
  | cfg c d =>
    rw [parseLine, tokensFrom_asmLine_cfg]
    simp only [decimalByte_decimalText, ↓reduceIte]
  | init | finish => simp [parseLine, asmLine, tokensFrom]
  | key P | update P | hash P =>
    rw [parseLine, asmLine, tokensFrom_mnemonic (by simp [wordChar]) (by nofun)]
    simp [hexBytes_map_hexText]

/-- Settles O6: the line of a command is read back as the command (`parseLine_asmLine`), whose frame is then its
encoding. -/
theorem assemblerWritesTheFrame : Obligations.AssemblerWritesTheFrame := fun i =>
  congrArg (Option.map encode) (parseLine_asmLine i)

/-! ### The run (20_memory.md R59) and the port (10_state.md R36) -/

theorem core_run_succ {s t : State} (h : step s = .next t) (n : Nat) :
    Host.Core.run core (n + 1) s = Host.Core.run core n t := by
  have hstep : core.step s = .next t := h
  simp only [Host.Core.run, hstep]

/-- A command over another port, from its answer. -/
theorem exec_with_port {i : Instr} {s t : State} (h : exec i s = .next t) (p : List PortEvent) :
    exec i { s with port := p } = .next { t with port := p } := by
  rw [exec_port, h, andThen_next]

/-- A command keeps the port: over the port it has already, its answer is the same. -/
theorem exec_port_eq {i : Instr} {s t : State} (h : exec i s = .next t) : t.port = s.port := by
  have hsame : t = { t with port := s.port } := Host.Outcome.next.inj (h.symm.trans (exec_with_port h s.port))
  rw [hsame]

theorem answerFrame_with_port {F : Frame} {s t : State} (h : answerFrame F s = .next t) (p : List PortEvent) :
    answerFrame F { s with port := p } = .next { t with port := p } := by
  cases hF : decode F with
  | cmd i => exact (answerFrame_cmd hF _).trans (exec_with_port ((answerFrame_cmd hF s).symm.trans h) p)
  | reject e =>
    cases (answerFrame_reject hF s).symm.trans h
    exact answerFrame_reject hF _

theorem answerFrame_port_eq {F : Frame} {s t : State} (h : answerFrame F s = .next t) : t.port = s.port := by
  have hsame : t = { t with port := s.port } := Host.Outcome.next.inj (h.symm.trans (answerFrame_with_port h s.port))
  rw [hsame]

/-- Settles O10: over the port `p` by `exec_with_port`, over its own by `exec_port_eq`. -/
theorem commandsDoNotSeeThePort : Obligations.CommandsDoNotSeeThePort := fun _ _ _ p h =>
  ⟨exec_port_eq h, exec_with_port h p⟩

/-- A frame's answer leaves the frames behind it on the port, so the run goes on with them. -/
theorem core_run_eq_runFrames (Fs : List Frame) {s : State} {rest : List PortEvent}
    (h : s.port = Fs.map .frame ++ rest) : Host.Core.run core Fs.length s = runFrames Fs { s with port := rest } := by
  induction Fs generalizing s with
  | nil =>
    cases h
    rfl
  | cons F Fs ih =>
    obtain ⟨t, ht⟩ := answerFrame_total F { s with port := Fs.map .frame ++ rest }
    have hstep : step s = .next t := (step_event h).trans ht
    have hrest : answerFrame F { s with port := rest } = .next { t with port := rest } :=
      answerFrame_with_port ht rest
    rw [List.length_cons, core_run_succ hstep, ih (answerFrame_port_eq ht), runFrames_cons, hrest, andThen_next]

/-- Settles O9: the run by induction on the delivered frames, the concatenation is `runFrames_append`. -/
theorem runIsTheFoldOverItsFrames : Obligations.RunIsTheFoldOverItsFrames :=
  ⟨fun Fs _ _ => core_run_eq_runFrames Fs, runFrames_append⟩

/-! ### The response (60_exceptions.md R161) -/

/-- The fixed order reads of a frame its opcode, its length and, for CFG, the two counts. -/
theorem responseTo_congr {F G : Frame} (hhead : F.head? = G.head?) (hlen : F.length = G.length)
    (hcfg : F.head? = some 0x01 → F = G) (kv : Bool) (ph : Phase) : responseTo F kv ph = responseTo G kv ph := by
  by_cases h1 : F.head? = some 0x01
  · rw [hcfg h1]
  match F, G, hhead with
  | [], [], _ => rfl
  | op :: xs, _ :: ys, rfl =>
    have hop : ¬ op = 0x01#8 := fun h => h1 (congrArg some h)
    simp only [responseTo, hlen, hop, false_and]

/-- Settles O42: both responses are the first failing test (`firstFailingTestAnswers`), which `responseTo_congr` finds
equal. -/
theorem dataCausesNoRejection : Obligations.DataCausesNoRejection := by
  intro F G s u hhead hlen hcfg hkv hph
  obtain ⟨t, ht, hterr⟩ := firstFailingTestAnswers F s
  obtain ⟨w, hw, hwerr⟩ := firstFailingTestAnswers G u
  refine ⟨t, w, ht, hw, ?_⟩
  rw [hterr, hwerr, hkv, hph, responseTo_congr hhead hlen hcfg]

/-! ### Who writes the key lanes (10_state.md R22), `PH` (R26) and `OUT` (70_reset_and_hazards.md R190) -/

theorem pushBytes_k (s : State) (P : List Byte) : (pushBytes s P).k = s.k := by
  obtain ⟨v, pend, fill, h⟩ := pushBytes_frame P s
  rw [h]

/-- Only an accepted KEY writes the key lanes. -/
theorem exec_k_cases {i : Instr} {s t : State} (h : exec i s = .next t) :
    t.k = s.k ∨ ∃ P, i = .key P ∧ P.length = 16 ∧ t.k = keyDerive P ∧ t.err = .ok := by
  rcases exec_cases i s with ⟨e, -, he⟩ | ⟨c, d, -, -, -, -, he⟩ | ⟨P, hi, hP, he⟩ | ⟨-, -, he⟩ |
    ⟨P, -, -, he⟩ | ⟨-, -, he⟩ | ⟨P, -, -, he⟩
  · cases he.symm.trans h; exact .inl rfl
  · cases he.symm.trans h; exact .inl rfl
  · cases he.symm.trans h; exact .inr ⟨P, hi, hP, rfl, rfl⟩
  · cases he.symm.trans h; exact .inl rfl
  · cases he.symm.trans h; exact .inl (pushBytes_k s P)
  · cases he.symm.trans h; exact .inl rfl
  · cases he.symm.trans h; exact .inl rfl

theorem answerFrame_k_cases {F : Frame} {s t : State} (h : answerFrame F s = .next t) :
    t.k = s.k ∨ ∃ P, decode F = .cmd (.key P) ∧ P.length = 16 ∧ t.k = keyDerive P ∧ t.err = .ok := by
  rcases answerFrame_cases F s with ⟨i, hi, ha⟩ | ⟨e, -, ha⟩
  · rw [hi]
    simpa only [Decoded.cmd.injEq] using exec_k_cases (ha.symm.trans h)
  · cases ha.symm.trans h; exact .inl rfl

/-- Settles O44: a step that is no reset waits or answers a frame, whose writes are `answerFrame_k_cases`. -/
theorem keyLanesAreWrittenByKeyOnly : Obligations.KeyLanesAreWrittenByKeyOnly := by
  intro s t h hk
  rcases step_cases s with ⟨-, hstep⟩ | ⟨rest, hport, -⟩ | ⟨F, rest, hport, hstep⟩
  · cases hstep.symm.trans h
    exact absurd rfl hk
  · exact .inl ⟨rest, hport⟩
  · rcases answerFrame_k_cases (hstep.symm.trans h) with hsame | ⟨P, hP⟩
    · exact absurd hsame hk
    · exact .inr ⟨F, rest, P, hport, hP⟩

/-- An accepted command was allowed and leaves the phase of the table (10_state.md R26). -/
theorem exec_ok_phase {i : Instr} {s t : State} (h : exec i s = .next t) (hok : t.err = .ok) :
    allowedIn i s ∧ t.ph = phaseAfter i s.ph := by
  rcases exec_cases i s with ⟨e, hne, he⟩ | ⟨c, d, rfl, hph, -, -, he⟩ | ⟨P, rfl, -, he⟩ | ⟨rfl, hkv, he⟩ |
    ⟨P, rfl, hph, he⟩ | ⟨rfl, hph, he⟩ | ⟨P, rfl, hkv, he⟩
  · cases he.symm.trans h; exact absurd hok hne
  · cases he.symm.trans h
    refine ⟨?_, rfl⟩
    cases hp : s.ph with
    | idle => exact .inl hp
    | absorb => exact absurd hp hph
    | done => exact .inr hp
  · cases he.symm.trans h; exact ⟨trivial, rfl⟩
  · cases he.symm.trans h; exact ⟨hkv, rfl⟩
  · cases he.symm.trans h; exact ⟨hph, (pushBytes_ph s P).trans hph⟩
  · cases he.symm.trans h; exact ⟨hph, rfl⟩
  · cases he.symm.trans h; exact ⟨hkv, rfl⟩

/-- Settles O47: an accepted command by `exec_ok_phase`, an allowed one by `exec_ok_of_allowedIn`, and a rejection is
`State.reject`, which keeps the phase. -/
theorem phaseFollowsItsTable : Obligations.PhaseFollowsItsTable := by
  refine ⟨⟨rfl, rfl, rfl, fun p => by cases p <;> decide⟩, fun _ _ _ => exec_ok_phase, fun i s t h herr => ?_,
    fun i s hallowed hwf hcfg => exec_ok_of_allowedIn hallowed hcfg ((wellFormed_iff i).1 hwf), fun F s t h herr => ?_⟩
  · rw [exec_eq_reject h herr, State.reject_ph]
  · rw [answerFrame_eq_reject h herr, State.reject_ph]

/-- A frame that is neither FINISH nor HASH keeps `OUT`. -/
theorem answerFrame_out {F : Frame} (hfinish : decode F ≠ .cmd .finish) (hhash : ∀ P, decode F ≠ .cmd (.hash P))
    {s t : State} (h : answerFrame F s = .next t) : t.out = s.out := by
  rcases answerFrame_cases F s with ⟨i, hi, ha⟩ | ⟨e, -, ha⟩
  · refine exec_out (fun hi' => hfinish ?_) (fun P hi' => hhash P ?_) (ha.symm.trans h) <;> rw [hi, hi']
  · cases ha.symm.trans h; rfl

/-- An accepted FINISH or HASH ends in `DONE` with the fold of its lanes. -/
theorem exec_digest {i : Instr} (hi : i = .finish ∨ ∃ P, i = .hash P) {s t : State} (h : exec i s = .next t)
    (hok : t.err = .ok) : t.ph = .done ∧ t.out = outputFold t.v := by
  obtain ⟨hallowed, -⟩ := exec_ok_phase h hok
  rcases hi with rfl | ⟨P, rfl⟩
  · cases (exec_finish_ok hallowed).symm.trans h
    exact ⟨rfl, rfl⟩
  · cases (exec_hash_ok hallowed P).symm.trans h
    exact ⟨rfl, rfl⟩

/-- Settles O45: another frame keeps `OUT` (`answerFrame_out`), a rejection too (`answerFrame_eq_reject`), and an
accepted digest is `exec_digest`. -/
theorem outIsWrittenByDigestsOnly : Obligations.OutIsWrittenByDigestsOnly := by
  refine ⟨fun F s t h hout => ⟨?_, ?_⟩, fun F s t h hok hF => ?_⟩
  · by_contra herr
    exact hout (by rw [answerFrame_eq_reject h herr, State.reject_out])
  · by_contra hF
    push Not at hF
    obtain ⟨hfinish, hhash⟩ := hF
    exact hout (answerFrame_out hfinish hhash h)
  · rcases answerFrame_cases F s with ⟨i, hi, ha⟩ | ⟨e, he, -⟩
    · simp only [hi, Decoded.cmd.injEq] at hF
      exact exec_digest hF (ha.symm.trans h) hok
    · simp [he] at hF

/-! ### The status port (10_state.md R29) -/

/-- Settles O48: each field is one operand of the concatenation, reached by dropping the operands below it. -/
theorem statusPortShowsFiveFields : Obligations.StatusPortShowsFiveFields := by
  intro s
  refine ⟨BitVec.extractLsb'_append_eq_right, ?_, ?_, ?_, ?_, ?_, rfl⟩
  · -- `KV`, above `PH`
    rw [statusPort, BitVec.getLsbD_append, BitVec.getLsbD_append]
    simp
  · -- the zeros, above `PH` and `KV`
    rw [statusPort]
    iterate 2 rw [BitVec.extractLsb'_append_eq_of_le (by decide)]
    exact BitVec.extractLsb'_append_eq_right
  · -- `ERR`
    rw [statusPort]
    iterate 3 rw [BitVec.extractLsb'_append_eq_of_le (by decide)]
    exact BitVec.extractLsb'_append_eq_right
  · -- `RC_C`
    rw [statusPort]
    iterate 4 rw [BitVec.extractLsb'_append_eq_of_le (by decide)]
    exact BitVec.extractLsb'_append_eq_right
  · -- `RC_D`
    rw [statusPort]
    iterate 4 rw [BitVec.extractLsb'_append_eq_of_le (by decide)]
    exact BitVec.extractLsb'_append_eq_left

/-! ### The word operators (00_scope.md R8) -/

/-- The bits of a rotated word: the low `n` come from the top, the others from `n` places below. -/
theorem getLsbD_rotl (x : Word) {n j : Nat} (hn : n < 64) (hj : j < 64) :
    (rotl x n).getLsbD j = if j < n then x.getLsbD (64 - n + j) else x.getLsbD (j - n) := by
  rw [rotl_eq_rotateLeft x hn, BitVec.getLsbD_rotateLeft, Nat.mod_eq_of_lt hn]
  by_cases h : j < n
  · simp [h]
  · simp [h, hj]

theorem getLsbD_rotl_add_mod (x : Word) {n i : Nat} (hn : n < 64) (hi : i < 64) :
    (rotl x n).getLsbD ((i + n) % 64) = x.getLsbD i := by
  rw [getLsbD_rotl x hn (Nat.mod_lt _ (by decide))]
  by_cases hwrap : i + n < 64
  · rw [Nat.mod_eq_of_lt hwrap, if_neg (by omega), Nat.add_sub_cancel]
  · have hmod : (i + n) % 64 = i + n - 64 := by omega
    rw [hmod, if_pos (by omega)]
    congr 1
    omega

/-- Rotations by amounts that sum to the width undo each other. -/
theorem rotl_rotl_cancel (x : Word) {m n : Nat} (hm : 0 < m) (hn : 0 < n) (h : m + n = 64) :
    rotl (rotl x m) n = x := by
  apply BitVec.eq_of_getLsbD_eq
  intro i hi
  rw [getLsbD_rotl _ (by omega) hi]
  by_cases hin : i < n
  · have hplace : 64 - n + i = (i + m) % 64 := by omega
    rw [if_pos hin, hplace, getLsbD_rotl_add_mod x (by omega) hi]
  · have hplace : i - n = (i + m) % 64 := by omega
    rw [if_neg hin, hplace, getLsbD_rotl_add_mod x (by omega) hi]

theorem rotl_half (x : Word) : rotl x 32 = x.extractLsb' 0 32 ++ x.extractLsb' 32 32 := by
  apply BitVec.eq_of_getLsbD_eq
  intro j hj
  rw [getLsbD_rotl x (by decide) hj, BitVec.getLsbD_append]
  by_cases h : j < 32
  · simp [h]
  · have h' : j - 32 < 32 := by omega
    simp [h, h']

/-- Settles O17: the bits of a rotation are `getLsbD_rotl_add_mod`, the half swap `rotl_half`. -/
theorem wordOperatorsWrapAndRotate : Obligations.WordOperatorsWrapAndRotate :=
  ⟨BitVec.toNat_add, fun x _ _ _ => getLsbD_rotl_add_mod x, rotl_half⟩

/-! ### The round's inverse (41_round.md R116) and its repetition (R114) -/

/-- Each operation of the round, from the last back to the first, meets the one that undoes it: an addition its
subtraction, a rotation the one that completes it to 64, a XOR itself. -/
theorem sipRoundInv_sipRound (v : Lanes) : sipRoundInv (sipRound v) = v := by
  simp [sipRound, sipRoundInv, rotl_rotl_cancel]

theorem sipRound_sipRoundInv (v : Lanes) : sipRound (sipRoundInv v) = v := by
  simp [sipRound, sipRoundInv, rotl_rotl_cancel]

theorem rounds_add (v : Lanes) (m n : Nat) : rounds v (m + n) = rounds (rounds v m) n := by
  induction n with
  | zero => rfl
  | succ n ih => rw [← Nat.add_assoc, rounds_succ, rounds_succ, ih]

theorem xorV3_zero (v : Lanes) : xorV3 0 v = v :=
  congrArg (fun w => { v with v3 := w }) BitVec.xor_zero

theorem xorV0_zero (v : Lanes) : xorV0 0 v = v :=
  congrArg (fun w => { v with v0 := w }) BitVec.xor_zero

theorem absorbBlock_zero (v : Lanes) (c : Nat) : absorbBlock v 0 c = rounds v c := by
  rw [absorbBlock, xorV3_zero, xorV0_zero]

/-- Settles O20: the two inversions give the bijection; the fixed point is evaluated. -/
theorem roundIsABijection : Obligations.RoundIsABijection := by
  refine ⟨sipRoundInv_sipRound, sipRound_sipRoundInv,
    Function.bijective_iff_has_inverse.2 ⟨sipRoundInv, sipRoundInv_sipRound, sipRound_sipRoundInv⟩, by decide, ?_⟩
  rintro ⟨a, b, c, d⟩ ⟨_, _, _, _⟩ rfl rfl rfl rfl
  rfl

/-- Settles O21: composition by induction on the later rounds; a zero block is injected without effect. -/
theorem roundsCompose : Obligations.RoundsCompose := ⟨rounds_zero, rounds_succ, rounds_add, absorbBlock_zero⟩

/-! ### The effect of the lane operations (10_state.md R23) -/

theorem foldl_rounds (c : Nat) (v : Lanes) : (List.replicate c LaneOp.round).foldl applyLaneOp v = rounds v c := by
  induction c with
  | zero => rfl
  | succ c ih =>
    rw [List.replicate_succ', List.foldl_append, ih]
    rfl

theorem foldl_blockOps (m : Word) (c : Nat) (v : Lanes) : (blockOps m c).foldl applyLaneOp v = absorbBlock v m c := by
  rw [blockOps, List.foldl_cons, List.foldl_append, foldl_rounds]
  rfl

theorem foldl_finalOps (mf : Word) (c d : Nat) (v : Lanes) :
    (finalOps mf c d).foldl applyLaneOp v = finalizeLanes v mf c d := by
  rw [finalOps, List.foldl_append, foldl_blockOps, List.foldl_cons, foldl_rounds]
  rfl

theorem foldl_batchOps (P : List Byte) (c : Nat) (v : Lanes) :
    (batchOps P c).foldl applyLaneOp v = batchAbsorb v P c := by
  simp only [batchOps, List.foldl_flatMap, foldl_blockOps, batchAbsorb]

/-- The operations of `PushByte` over a payload give its lanes; `PushByte` keeps the round count they use. -/
theorem foldl_pushOps (P : List Byte) (s : State) :
    (pushOps s.rcC.toNat s.pend s.fill P).foldl applyLaneOp s.v = (pushBytes s P).v := by
  induction P generalizing s with
  | nil => rfl
  | cons b P ih =>
    rw [pushBytes_cons, ← ih, pushOps]
    by_cases h : s.fill.toNat + 1 = 8
    · rw [if_pos h, List.foldl_append, foldl_blockOps, pushByte, if_pos h]
    · rw [if_neg h, pushByte, if_neg h]

/-- Settles O54: a rejected command performs no operation; each accepted one performs those of its `foldl_` lemma. -/
theorem lanesFollowTheirOperations : Obligations.LanesFollowTheirOperations := by
  intro i s t h
  cases i with
  | cfg c d => rw [exec_cfg_frame h]; rfl
  | key P => rw [(exec_key_frame h).1]; rfl
  | init =>
    rw [laneOps]
    split_ifs with hkv
    · cases (exec_init_ok hkv).symm.trans h; rfl
    · cases (exec_init_nokey (eq_false_of_ne_true hkv)).symm.trans h; rfl
  | update P =>
    rw [laneOps]
    split_ifs with hph
    · cases (exec_update_ok hph P).symm.trans h; exact (foldl_pushOps P s).symm
    · cases (exec_update_phase hph P).symm.trans h; rfl
  | finish =>
    rw [laneOps]
    split_ifs with hph
    · cases (exec_finish_ok hph).symm.trans h; exact (foldl_finalOps _ _ _ _).symm
    · cases (exec_finish_phase hph).symm.trans h; rfl
  | hash P =>
    rw [laneOps]
    split_ifs with hkv
    · cases (exec_hash_ok hkv P).symm.trans h
      rw [List.foldl_cons, List.foldl_append, foldl_batchOps, foldl_finalOps]
      rfl
    · cases (exec_hash_nokey (eq_false_of_ne_true hkv) P).symm.trans h; rfl

/-! ### What an observer sees of the lane operations (70_reset_and_hazards.md R193) -/

/-- The kinds of the operations that absorb `n` blocks. -/
def blockKinds (n c : Nat) : List LaneOpKind :=
  (List.replicate n (.injectV3 :: (List.replicate c .round ++ [.injectV0]))).flatten

/-- The kinds of the operations of `Finalize`. -/
def finalKinds (c d : Nat) : List LaneOpKind := blockKinds 1 c ++ .tagV2 :: List.replicate d .round

/-- The kinds of a command's operations, computed from its opcode, the length `n` of its frame (the payload has `n - 1`
bytes), and those registers that R193 lets it depend on. -/
def commandKinds (op : Byte) (n : Nat) (rcC rcD : Byte) (fill : BitVec 3) (ph : Phase) (kv : Bool) : List LaneOpKind :=
  if op = 0x03 then if kv then [.load] else []
  else if op = 0x04 then if ph = .absorb then blockKinds ((fill.toNat + (n - 1)) / 8) rcC.toNat else []
  else if op = 0x05 then if ph = .absorb then finalKinds rcC.toNat rcD.toNat else []
  else if op = 0x06 then
    if kv then .load :: (blockKinds ((n - 1) / 8) rcC.toNat ++ finalKinds rcC.toNat rcD.toNat) else []
  else []

theorem blockKinds_succ (n c : Nat) : blockKinds (n + 1) c = blockKinds 1 c ++ blockKinds n c := by
  simp [blockKinds, List.replicate_succ]

theorem map_kind_blockOps (m : Word) (c : Nat) : (blockOps m c).map laneOpKind = blockKinds 1 c := by
  simp [blockOps, blockKinds, laneOpKind]

theorem map_kind_finalOps (mf : Word) (c d : Nat) : (finalOps mf c d).map laneOpKind = finalKinds c d := by
  simp [finalOps, finalKinds, map_kind_blockOps, laneOpKind]

theorem map_kind_batchOps (P : List Byte) (c : Nat) :
    (batchOps P c).map laneOpKind = blockKinds (P.length / 8) c := by
  rw [batchOps, List.map_flatMap]
  simp only [map_kind_blockOps]
  induction P.length / 8 with
  | zero => rfl
  | succ n ih => rw [List.range_succ_eq_map, List.flatMap_cons, List.flatMap_map, ih, ← blockKinds_succ]

/-- A block is absorbed whenever eight bytes are complete, whatever they are. -/
theorem map_kind_pushOps (c : Nat) (P : List Byte) (pend : Word) (fill : BitVec 3) :
    (pushOps c pend fill P).map laneOpKind = blockKinds ((fill.toNat + P.length) / 8) c := by
  induction P generalizing pend fill with
  | nil =>
    have hf := fill.isLt
    rw [List.length_nil, Nat.div_eq_of_lt (by omega)]
    rfl
  | cons b P ih =>
    rw [List.length_cons, pushOps]
    by_cases h : fill.toNat + 1 = 8
    · have hdiv : (fill.toNat + (P.length + 1)) / 8 = ((0 : BitVec 3).toNat + P.length) / 8 + 1 := by
        have hzero : (0 : BitVec 3).toNat = 0 := rfl
        omega
      rw [if_pos h, List.map_append, map_kind_blockOps, ih, hdiv, ← blockKinds_succ]
    · have hfill : (fill + 1).toNat = fill.toNat + 1 := by bv_omega
      rw [if_neg h, ih, hfill, Nat.add_assoc, Nat.add_comm 1]

theorem map_kind_laneOps (i : Instr) (s : State) : (laneOps i s).map laneOpKind =
    commandKinds (opcodeOf i) (encode i).length s.rcC s.rcD s.fill s.ph s.kv := by
  cases i with
  | cfg c d => rfl
  | key P => rfl
  | init =>
    rw [laneOps, apply_ite (List.map laneOpKind)]
    rfl
  | update P =>
    rw [laneOps, apply_ite (List.map laneOpKind), map_kind_pushOps]
    rfl
  | finish =>
    rw [laneOps, apply_ite (List.map laneOpKind), map_kind_finalOps]
    rfl
  | hash P =>
    rw [laneOps, apply_ite (List.map laneOpKind), List.map_cons, List.map_append, map_kind_batchOps, map_kind_finalOps]
    rfl

/-- Settles O56: both sequences show `commandKinds`, which sees only what the two sides agree on. -/
theorem laneOperationsDoNotDependOnData : Obligations.LaneOperationsDoNotDependOnData := by
  intro i j s u hop hlen hc hd hfill hph hkv
  rw [map_kind_laneOps, map_kind_laneOps, hop, hlen, hc, hd, hfill, hph, hkv]

end Sys2Proof.Machine
